-- ==== Sys2Proof/Word.lean ====
section
/-!
DEFINITION. Word.lean: the two word types of the block (rules R5 and R100).
-/

namespace Sys2Proof

/-- `u64` of rule R5: a port word, a state word, a payload word, a result word (R52). -/
abbrev Word := BitVec 64

/-- `u32` of rule R5. -/
abbrev U32 := BitVec 32

/-- A four-bit header field: `CTX`, `ALG` or `NW` (R72). -/
abbrev Nibble := BitVec 4

end Sys2Proof
end

