-- ==== Sys2Proof/Syntax.lean ====
section
/-!
DEFINITION. Syntax.lean: the nine algorithms (R76) and the ten commands of the opcode table (R74).
-/

namespace Sys2Proof

/-- The algorithm selector of rule R76, in the order of its codes 0 to 8. -/
inductive Alg where
  | xorshift32
  | xorshift64
  | xorshift128
  | xorshift128p
  | xoshiro128pp
  | xoshiro256pp
  | splitmix32
  | splitmix64
  | xorwow
  deriving DecidableEq, Repr

/-- One constructor per row of `spec/opcode_table.json` (R74).  A context number is the 4-bit field
`CTX` whatever its value: whether it names a context is check 8 of R272.  A payload word is a whole
64-bit word (R73). -/
inductive Instr where
  /-- `SEED c, alg, payload` (R140): the payload is the `NW` words `P[0..NW-1]`, of any count. -/
  | seed (c : Nibble) (alg : Alg) (payload : List Word)
  /-- `NEXT c` (R141). -/
  | next (c : Nibble)
  /-- `FEED32 c` (R231). -/
  | feed32 (c : Nibble)
  /-- `BDRAW_DF c, range` (R237). -/
  | bdrawDf (c : Nibble) (range : U32)
  /-- `BDRAW_DA c, range` (R238). -/
  | bdrawDa (c : Nibble) (range : U32)
  /-- `CVTM x` (R204). -/
  | cvtm (x : Word)
  /-- `CVTB x` (R205). -/
  | cvtb (x : Word)
  /-- `NEXTD_M c` (R207). -/
  | nextdM (c : Nibble)
  /-- `NEXTD_B c` (R208). -/
  | nextdB (c : Nibble)
  /-- `RDST c` (R142). -/
  | rdst (c : Nibble)
  deriving DecidableEq, Repr

end Sys2Proof
end

