-- ==== Sys2Proof/WellFormed.lean ====
section
/-!
DEFINITION. WellFormed.lean: which instructions have an encoding.  The one bound the syntax does not
carry by its types is the payload of SEED: `NW` is a 4-bit field, so a command has at most 15 payload
words (R70, R82).  A word count that is not the algorithm's arity, a zero seed, a seed word too wide
and a range of 0 are well formed: the block decodes them and answers with a status (R83, R272).
-/

namespace Sys2Proof

/-- The payload words a command carries after its header (R70). -/
def Instr.payload : Instr → List Word
  | .seed _ _ payload => payload
  | .cvtm x => [x]
  | .cvtb x => [x]
  | .next _ | .feed32 _ | .bdrawDf _ _ | .bdrawDa _ _ | .nextdM _ | .nextdB _ | .rdst _ => []

/-- `NW` is a 4-bit field (R72): at most 15 payload words. -/
abbrev Instr.WellFormed (i : Instr) : Prop := i.payload.length ≤ 15

end Sys2Proof
end

