-- ==== Sys2Proof/Decode.lean ====
section
/-!
DEFINITION. Decode.lean: header fields (R72), algorithm codes (R76), the framing by `NW` (R71), the
decoder with its named rejections (R80, checks 1 to 7 of R272), the encoder (R83), the match and
mask table (R75), and the host's reading of a table word.
-/

namespace Sys2Proof

/-! ### Header fields -/

/-- `OPC`, bits 63:56 (R72). -/
def opcOf (h : Word) : BitVec 8 := h.extractLsb' 56 8
/-- `CTX`, bits 55:52 (R72). -/
def ctxOf (h : Word) : Nibble := h.extractLsb' 52 4
/-- `ALG`, bits 51:48 (R72). -/
def algOf (h : Word) : Nibble := h.extractLsb' 48 4
/-- `NW`, bits 47:44 (R72). -/
def nwOf (h : Word) : Nibble := h.extractLsb' 44 4
/-- `RSV`, bits 43:32 (R72). -/
def rsvOf (h : Word) : BitVec 12 := h.extractLsb' 32 12
/-- `IMM`, bits 31:0 (R72). -/
def immOf (h : Word) : U32 := h.extractLsb' 0 32

/-- The header with the given fields and `RSV` zero (R72). -/
def mkHeader (opc : BitVec 8) (ctx alg nw : Nibble) (imm : U32) : Word :=
  opc ++ ctx ++ alg ++ nw ++ 0#12 ++ imm

/-! ### Algorithm codes -/

/-- The code of an algorithm (R76). -/
def Alg.code : Alg → Nibble
  | .xorshift32 => 0
  | .xorshift64 => 1
  | .xorshift128 => 2
  | .xorshift128p => 3
  | .xoshiro128pp => 4
  | .xoshiro256pp => 5
  | .splitmix32 => 6
  | .splitmix64 => 7
  | .xorwow => 8

/-- The algorithm of a code; 9 to 15 are reserved (R76). -/
def Alg.ofCode (a : Nibble) : Option Alg :=
  match a.toNat with
  | 0 => some .xorshift32
  | 1 => some .xorshift64
  | 2 => some .xorshift128
  | 3 => some .xorshift128p
  | 4 => some .xoshiro128pp
  | 5 => some .xoshiro256pp
  | 6 => some .splitmix32
  | 7 => some .splitmix64
  | 8 => some .xorwow
  | _ => none

/-! ### The decoder -/

/-- Why a header is no defined command: the conditions of R80, named, in the order of checks 1 to 7
of R272.  The block answers ILLEGAL_COMMAND to every one of them alike (R81). -/
inductive Reject where
  /-- check 1: `OPC` is 0x00 or 0x0B to 0xFF -/
  | reservedOpcode
  /-- check 2: `RSV` is not zero -/
  | reservedBits
  /-- check 3: `ALG` is not zero and the opcode is not SEED -/
  | algNotZero
  /-- check 4: `IMM` is not zero and the opcode is no bounded draw -/
  | immNotZero
  /-- check 5: `NW` is not the row's value and the opcode is not SEED -/
  | payloadCount
  /-- check 6: `ALG` is 9 to 15 in a SEED -/
  | reservedAlgorithm
  /-- check 7: `CTX` is not zero in a CVTM or CVTB -/
  | contextNotZero
  deriving DecidableEq, Repr

/-- The `NW` the row of R74 requires of an opcode other than SEED. -/
def rowPayloadCount (opc : BitVec 8) : Nibble := if opc = 0x06 ∨ opc = 0x07 then 1 else 0

/-- Checks 1 to 7 of R272, in their order: the first that fails. -/
def rejectHeader (h : Word) : Option Reject :=
  let opc := opcOf h
  if opc = 0x00 ∨ opc > 0x0A then some .reservedOpcode
  else if rsvOf h ≠ 0 then some .reservedBits
  else if opc ≠ 0x01 ∧ algOf h ≠ 0 then some .algNotZero
  else if opc ≠ 0x04 ∧ opc ≠ 0x05 ∧ immOf h ≠ 0 then some .immNotZero
  else if opc ≠ 0x01 ∧ nwOf h ≠ rowPayloadCount opc then some .payloadCount
  else if opc = 0x01 ∧ algOf h > 8 then some .reservedAlgorithm
  else if (opc = 0x06 ∨ opc = 0x07) ∧ ctxOf h ≠ 0 then some .contextNotZero
  else none

/-- The command of a header that no check of `rejectHeader` refuses, with the payload words `p`: the
row of R74.  The two rejections here are the cases checks 1 and 6 have already refused. -/
def readRow (h : Word) (p : List Word) : Except Reject Instr :=
  match (opcOf h).toNat with
  | 0x01 =>
    match Alg.ofCode (algOf h) with
    | some a => .ok (.seed (ctxOf h) a p)
    | none => .error .reservedAlgorithm
  | 0x02 => .ok (.next (ctxOf h))
  | 0x03 => .ok (.feed32 (ctxOf h))
  | 0x04 => .ok (.bdrawDf (ctxOf h) (immOf h))
  | 0x05 => .ok (.bdrawDa (ctxOf h) (immOf h))
  | 0x06 => .ok (.cvtm (p.headD 0))
  | 0x07 => .ok (.cvtb (p.headD 0))
  | 0x08 => .ok (.nextdM (ctxOf h))
  | 0x09 => .ok (.nextdB (ctxOf h))
  | 0x0A => .ok (.rdst (ctxOf h))
  | _ => .error .reservedOpcode

/-- Decode a header whose `NW` payload words `p` have all arrived (R74, R80, R272). -/
def decodeHeader (h : Word) (p : List Word) : Except Reject Instr :=
  match rejectHeader h with
  | some why => .error why
  | none => readRow h p

/-- What the words received so far are (R71). -/
inductive Decoded where
  /-- fewer than `1 + NW` words have arrived: the block waits (R307) -/
  | incomplete
  /-- the first `1 + NW` words are an illegal command; `rest` are the words after it -/
  | illegal (why : Reject) (rest : List Word)
  /-- the first `1 + NW` words are the command `i`; `rest` are the words after it -/
  | command (i : Instr) (rest : List Word)
  deriving DecidableEq, Repr

/-- Decode the command at the head of a word sequence.  Its length is `1 + NW` words, known from the
header alone, for every header including an illegal one (R71). -/
def decode (ws : List Word) : Decoded :=
  match ws with
  | [] => .incomplete
  | h :: ps =>
    if ps.length < (nwOf h).toNat then .incomplete
    else
      match decodeHeader h (ps.take (nwOf h).toNat) with
      | .ok i => .command i (ps.drop (nwOf h).toNat)
      | .error why => .illegal why (ps.drop (nwOf h).toNat)

/-! ### The encoder -/

/-- The header word of an instruction: all fields its row does not use are zero (R74, R83). -/
def encodeHeader : Instr → Word
  | .seed c a p => mkHeader 0x01 c a.code (BitVec.ofNat 4 p.length) 0
  | .next c => mkHeader 0x02 c 0 0 0
  | .feed32 c => mkHeader 0x03 c 0 0 0
  | .bdrawDf c range => mkHeader 0x04 c 0 0 range
  | .bdrawDa c range => mkHeader 0x05 c 0 0 range
  | .cvtm _ => mkHeader 0x06 0 0 1 0
  | .cvtb _ => mkHeader 0x07 0 0 1 0
  | .nextdM c => mkHeader 0x08 c 0 0 0
  | .nextdB c => mkHeader 0x09 c 0 0 0
  | .rdst c => mkHeader 0x0A c 0 0 0

/-- The words of an instruction: the header and then the payload, in order (R70, R83). -/
def encode (i : Instr) : List Word := encodeHeader i :: i.payload

/-! ### The match and mask table -/

/-- One row of the table of R75. -/
structure OpRow where
  mnemonic : String
  matchBits : Word
  maskBits : Word
  deriving DecidableEq, Repr

/-- The table of R75 (and of `spec/opcode_table.json`). -/
def opTable : List OpRow :=
  [ ⟨"SEED",     0x0100000000000000, 0xFF000FFFFFFFFFFF⟩,
    ⟨"NEXT",     0x0200000000000000, 0xFF0FFFFFFFFFFFFF⟩,
    ⟨"FEED32",   0x0300000000000000, 0xFF0FFFFFFFFFFFFF⟩,
    ⟨"BDRAW_DF", 0x0400000000000000, 0xFF0FFFFF00000000⟩,
    ⟨"BDRAW_DA", 0x0500000000000000, 0xFF0FFFFF00000000⟩,
    ⟨"CVTM",     0x0600100000000000, 0xFFFFFFFFFFFFFFFF⟩,
    ⟨"CVTB",     0x0700100000000000, 0xFFFFFFFFFFFFFFFF⟩,
    ⟨"NEXTD_M",  0x0800000000000000, 0xFF0FFFFFFFFFFFFF⟩,
    ⟨"NEXTD_B",  0x0900000000000000, 0xFF0FFFFFFFFFFFFF⟩,
    ⟨"RDST",     0x0A00000000000000, 0xFF0FFFFFFFFFFFFF⟩ ]

/-- A header matches a row when `(H and MASK) = MATCH` (R75). -/
def OpRow.hits (r : OpRow) (h : Word) : Bool := h &&& r.maskBits == r.matchBits

/-- The mnemonic of an instruction, as the opcode table spells it. -/
def Instr.mnemonic : Instr → String
  | .seed _ _ _ => "SEED"
  | .next _ => "NEXT"
  | .feed32 _ => "FEED32"
  | .bdrawDf _ _ => "BDRAW_DF"
  | .bdrawDa _ _ => "BDRAW_DA"
  | .cvtm _ => "CVTM"
  | .cvtb _ => "CVTB"
  | .nextdM _ => "NEXTD_M"
  | .nextdB _ => "NEXTD_B"
  | .rdst _ => "RDST"

/-! ### Table words -/

/-- The whole command whose bits are `w`: bit 0 is bit 0 of the header, bit 64 that of the first
payload word, and every bit above `nbits` is zero.  The header's own `NW` says how many payload
words there are (R71). -/
def tableWords (nbits w : Nat) : List Word :=
  let bits := w % 2 ^ nbits
  let h : Word := BitVec.ofNat 64 bits
  h :: (List.range (nwOf h).toNat).map fun k => BitVec.ofNat 64 (bits >>> (64 * (k + 1)))

/-- The instruction the decoder reads from the command whose bits are `w`. -/
def decodeTableWord (nbits w : Nat) : Option Instr :=
  match decode (tableWords nbits w) with
  | .command i _ => some i
  | .illegal _ _ => none
  | .incomplete => none

end Sys2Proof
end

