-- ==== Sys2Proof/Machine/Arith.lean ====
section
/-!
DEFINITION. Machine/Arith.lean: the fixed-width wrapping primitives of 40_arith.md (R100 to R112).
None traps and none writes a flag (R111).  `xor`, `or` and `and` of R102 are the operators
`^^^`, `|||` and `&&&`; the unsigned comparisons of R112 are `<` and `≥` on `BitVec`.
-/

namespace Sys2Proof

/-- `add_N(a, b)`: the sum modulo `2^N` (R101). -/
def addN {n : Nat} (a b : BitVec n) : BitVec n := a + b

/-- `shl_N(a, k)`: logical left shift (R103); 0 for `k ≥ N`, a case no rule reaches (D35). -/
def shlN {n : Nat} (a : BitVec n) (k : Nat) : BitVec n := a <<< k

/-- `shr_N(a, k)`: logical right shift (R104); 0 for `k ≥ N`, a case no rule reaches (D35). -/
def shrN {n : Nat} (a : BitVec n) (k : Nat) : BitVec n := a >>> k

/-- `rotl_N(a, k) = shl_N(a, k) or shr_N(a, N - k)` for `1 ≤ k ≤ N - 1` (R105). -/
def rotlN {n : Nat} (a : BitVec n) (k : Nat) : BitVec n := shlN a k ||| shrN a (n - k)

/-- `mul_N(a, b)`: the low `N` bits of the product (R106). -/
def mulN {n : Nat} (a b : BitVec n) : BitVec n := a * b

/-- `zext_64(a)` of a `u32` (R110). -/
def zext64 (a : U32) : Word := a.setWidth 64

/-- `lo32(v) = v[31:0]` (R110). -/
def lo32 (v : Word) : U32 := v.extractLsb' 0 32

/-- `hi32(v) = v[63:32]` (R110). -/
def hi32 (v : Word) : U32 := v.extractLsb' 32 32

/-- `a ++ b`, `a` in the high half (R110). -/
def concat32 (a b : U32) : Word := shlN (zext64 a) 32 ||| zext64 b

/-- `mulw(a, b)`: the exact 32 by 32 product, a `u64` (R107). -/
def mulw (a b : U32) : Word := zext64 a * zext64 b

/-- `neg_32(a) = (2^32 - a) mod 2^32` (R108). -/
def neg32 (a : U32) : U32 := -a

/-- `umod(a, b)`: the unsigned remainder, used only with `b ≥ 1` (R109). -/
def umod (a b : U32) : U32 := a % b

end Sys2Proof
end

