-- ==== Sys2Proof/Config.lean ====
section
/-!
DEFINITION. Config.lean: the two OPEN parameters of 00_scope.md section 4.  Each is a constant with
no body, so nothing proved of the model rests on a value of it; the two types admit exactly the
values the spec admits.
-/

namespace Sys2Proof

/-- The splitmix32 constants of rule R136 in a form that admits exactly the legal sets: an odd
32-bit constant is its upper 31 bits followed by a 1, and a shift of 1 to 31 is one more than a
number below 31. -/
structure Sm32 where
  /-- bits 31:1 of `INC` -/
  incHigh : BitVec 31
  /-- `SH1 - 1` -/
  sh1Pred : Fin 31
  /-- bits 31:1 of `MUL1` -/
  mul1High : BitVec 31
  /-- `SH2 - 1` -/
  sh2Pred : Fin 31
  /-- bits 31:1 of `MUL2` -/
  mul2High : BitVec 31
  /-- `SH3 - 1` -/
  sh3Pred : Fin 31
  deriving DecidableEq, Repr, Inhabited

/-- `INC`, odd (R136). -/
def Sm32.inc (p : Sm32) : U32 := p.incHigh ++ 1#1
/-- `SH1`, 1 to 31 (R136). -/
def Sm32.sh1 (p : Sm32) : Nat := p.sh1Pred.val + 1
/-- `MUL1`, odd (R136). -/
def Sm32.mul1 (p : Sm32) : U32 := p.mul1High ++ 1#1
/-- `SH2`, 1 to 31 (R136). -/
def Sm32.sh2 (p : Sm32) : Nat := p.sh2Pred.val + 1
/-- `MUL2`, odd (R136). -/
def Sm32.mul2 (p : Sm32) : U32 := p.mul2High ++ 1#1
/-- `SH3`, 1 to 31 (R136). -/
def Sm32.sh3 (p : Sm32) : Nat := p.sh3Pred.val + 1

namespace Config

/-- The parameter `SM32` (R136, D15), OPEN: log entry 2. -/
opaque sm32 : Sm32

/-- `NCTX - 1`; `NCTX` is OPEN, an integer 1 to 16 (R20, D3): log entry 1. -/
opaque nctxPred : Fin 16

/-- `NCTX`, the number of contexts (R20). -/
def nctx : Nat := nctxPred.val + 1

end Config

end Sys2Proof
end

