-- ==== Sys2Proof/Machine/State.lean ====
section
/-!
DEFINITION. Machine/State.lean: all the state of the block as plain data (10_state.md), the two
inputs and the one output of its boundary, the reasons a step can stop, and the reset state (R32).
The block has no memory, no registers addressed by number and no program counter (R31, R50).
-/

namespace Sys2Proof.Machine

/-- The six 64-bit word slots `W[0]` to `W[5]` of a context (R21), laid out by R22. -/
structure Words where
  w0 : Word
  w1 : Word
  w2 : Word
  w3 : Word
  w4 : Word
  w5 : Word
  deriving DecidableEq, Repr

/-- All six slots zero (R32). -/
def Words.zero : Words := ⟨0, 0, 0, 0, 0, 0⟩

/-- One context: a generator and its feeder (R21). -/
structure Context where
  /-- `VALID`: the context holds a seeded generator (R24) -/
  valid : Bool
  /-- `ALG`: the algorithm, meaningful only when `VALID = 1`; its code 0 to 8 is `Alg.code` -/
  alg : Alg
  /-- `W[0]` to `W[5]` -/
  w : Words
  /-- `HALF`: false is "empty", true is "half-cached" (R25) -/
  half : Bool
  /-- `CACHE`: the feeder's cached low half -/
  cache : U32
  deriving DecidableEq, Repr

/-- A context at reset (R32): unseeded, every field zero. -/
def Context.reset : Context :=
  { valid := false, alg := .xorshift32, w := Words.zero, half := false, cache := 0 }

/-- The two variants of the bounded draw (R28). -/
inductive Variant where
  /-- division-free -/
  | df
  /-- division-avoiding -/
  | da
  deriving DecidableEq, Repr

/-- The sequencer phase `PHASE` (R28). -/
inductive Phase where
  /-- no command is executing -/
  | idle
  /-- a bounded draw on context `c` is inside its rejection loop: `range` the bound, `t` the
  threshold, `m` the product of the last draw -/
  | loop (c : Nibble) (range t : U32) (m : Word) (variant : Variant)
  deriving DecidableEq, Repr

/-- The status codes of R270.  Codes 0x07 to 0xFF are never emitted (R81), so they have no name. -/
inductive Status where
  | ok
  | precondition
  | invalidRange
  | illegalCommand
  | notSeeded
  | algMismatch
  | badContext
  deriving DecidableEq, Repr

/-- A response: its status and its result words (R78). -/
structure Response where
  status : Status
  results : List Word
  deriving DecidableEq, Repr

/-- The state of the block and of its boundary.  `ctxs`, `phase` and `inbuf` are the architectural
state of R32.  `port`, `resetIn` and `responses` are the model's own fields for what crosses the
boundary (log entries 3, 4 and 5). -/
structure State where
  /-- the contexts `C[0]` to `C[NCTX - 1]`; its length is `NCTX` (R20) -/
  ctxs : List Context
  /-- `PHASE` (R28) -/
  phase : Phase
  /-- `INBUF`: the header and payload words received so far (R27) -/
  inbuf : List Word
  /-- the words the host has sent that wait in the command port, oldest first (R303) -/
  port : List Word
  /-- the reset input, asserted and not yet acted on (R300) -/
  resetIn : Bool
  /-- the responses emitted so far on the response port, oldest first (R29, R310) -/
  responses : List Response
  deriving DecidableEq, Repr

/-- Why a step of the model stops.  No rule of the spec stops the block: every error is a response
(R271) and a wait or a hang is a run that goes on (R304, R307). -/
inductive Fault where
  /-- Raised by `bdrawLoop` in a state whose `PHASE` is LOOP on a context that does not exist, is
  unseeded or holds a 32-bit algorithm.  Safe: R230 says a feed is called only on a context that can
  be fed, no step leads from the reset state to such a state, and the model stops instead of giving
  it an effect (log entry 8). -/
  | loopOnUnfeedable
  deriving DecidableEq, Repr

/-- Why the model refuses an instruction. -/
inductive Refusal where
  /-- Raised only by an arm of `exec` whose instruction has no meaning yet.  Safe: the model says
  nothing of that instruction.  No arm raises it in this model. -/
  | notModelled (mnemonic : String)
  deriving DecidableEq, Repr

/-- The block with `nctx` contexts right after reset (R32), its port empty and nothing answered. -/
def State.resetWith (nctx : Nat) : State :=
  { ctxs := List.replicate nctx Context.reset
    phase := .idle
    inbuf := []
    port := []
    resetIn := false
    responses := [] }

/-- The block right after reset (R32), for the `NCTX` of the implementation. -/
def State.reset : State := State.resetWith Config.nctx

end Sys2Proof.Machine
end

