-- ==== Sys2Proof/Machine/Operands.lean ====
section
/-!
DEFINITION. Machine/Operands.lean: the operands of the commands: arity and width of an algorithm
(R22), the 32-bit reading of a word slot (R23), the seed payload (R77) and its tests (R140, R143),
and status codes and response words (R78, R270).
-/

namespace Sys2Proof.Machine

/-- `arity(A)`: how many state words the algorithm has (R22). -/
def arity : Alg → Nat
  | .xorshift32 => 1
  | .xorshift64 => 1
  | .xorshift128 => 4
  | .xorshift128p => 2
  | .xoshiro128pp => 4
  | .xoshiro256pp => 4
  | .splitmix32 => 1
  | .splitmix64 => 1
  | .xorwow => 6

/-- `width(A)`: the width of each state word, 32 or 64; it is also the sample width (R22). -/
def width : Alg → Nat
  | .xorshift32 => 32
  | .xorshift64 => 64
  | .xorshift128 => 32
  | .xorshift128p => 64
  | .xoshiro128pp => 32
  | .xoshiro256pp => 64
  | .splitmix32 => 32
  | .splitmix64 => 64
  | .xorwow => 32

/-- Slot `W[i]`; slots past `W[5]` do not exist and read as zero here. -/
def Words.get (w : Words) (i : Nat) : Word :=
  match i with
  | 0 => w.w0
  | 1 => w.w1
  | 2 => w.w2
  | 3 => w.w3
  | 4 => w.w4
  | 5 => w.w5
  | _ => 0

/-- The slots a successful SEED writes: `P[i]` for `i < arity(A)`, zero above (R140).  The payload
of a successful SEED has `arity(A)` words, so a word the list does not have is an unused slot. -/
def Words.ofPayload (p : List Word) : Words :=
  ⟨p.getD 0 0, p.getD 1 0, p.getD 2 0, p.getD 3 0, p.getD 4 0, p.getD 5 0⟩

/-- No payload word of a 32-bit algorithm has bits 63:32 set (R140, D41). -/
def seedWidthOk (a : Alg) (p : List Word) : Bool :=
  width a == 64 || p.all fun x => hi32 x == 0

/-- `seed_ok(A, P)`: the non-zero-state precondition (R143). -/
def seedOk (a : Alg) (p : List Word) : Bool :=
  match a with
  | .xorshift32 | .xorshift64 => p.getD 0 0 != 0
  | .xorshift128 | .xoshiro128pp | .xoshiro256pp | .xorwow => (p.take 4).any (· != 0)
  | .xorshift128p => (p.take 2).any (· != 0)
  | .splitmix32 | .splitmix64 => true

/-- Check 9 of R272, the three parts of R140 in their order: the seed is legal. -/
def seedLegal (a : Alg) (p : List Word) : Bool :=
  p.length == arity a && seedWidthOk a p && seedOk a p

/-- The code of a status (R270). -/
def Status.code : Status → BitVec 8
  | .ok => 0x00
  | .precondition => 0x01
  | .invalidRange => 0x02
  | .illegalCommand => 0x03
  | .notSeeded => 0x04
  | .algMismatch => 0x05
  | .badContext => 0x06

/-- The response header word: `STATUS`, `NR`, and zero elsewhere (R78). -/
def Response.header (r : Response) : Word :=
  r.status.code ++ 0#8 ++ BitVec.ofNat 4 r.results.length ++ 0#44

/-- The words of a response in the order the block emits them (R78). -/
def Response.words (r : Response) : List Word := r.header :: r.results

end Sys2Proof.Machine
end

