-- ==== Sys2Proof/Machine/Ops.lean ====
section
/-!
DEFINITION. Machine/Ops.lean: the operations every command is written over: reading and writing a
context, the checks 8 and 10 to 12 of R272, the end of a command (R29, R271), the intake of words
(R71, R303, R307), the reset event (R300), and what the host can do (R309).
-/

namespace Sys2Proof.Machine

/-! ### Contexts -/

/-- `C[c]`, where `c < NCTX` (R20). -/
def State.ctx? (s : State) (c : Nibble) : Option Context := s.ctxs[c.toNat]?

/-- `C[c] <- x`. -/
def State.setCtx (s : State) (c : Nibble) (x : Context) : State :=
  { s with ctxs := s.ctxs.set c.toNat x }

/-- `PHASE <- p`. -/
def State.setPhase (s : State) (p : Phase) : State := { s with phase := p }

/-! ### The end of a command -/

/-- Emit the one response of a command and leave the block ready to decode the next: `PHASE` is
IDLE (R29, R236, R271). -/
def State.finish (s : State) (status : Status) (results : List Word) : State :=
  { s with phase := .idle, responses := s.responses ++ [⟨status, results⟩] }

/-- `raise status`: the whole effect of a failed command is its response, which has no result word
(R271).  The block has no trap entry and no return (R276). -/
def State.fail (s : State) (status : Status) : State := s.finish status []

/-! ### The checks on contexts and range -/

/-- Check 8: the context number is below `NCTX` (R272). -/
def State.checkContext (s : State) (c : Nibble) : Except Status Context :=
  match s.ctx? c with
  | some x => .ok x
  | none => .error .badContext

/-- Checks 8 and 10: the context holds a seeded generator (R272). -/
def State.checkSeeded (s : State) (c : Nibble) : Except Status Context :=
  match s.checkContext c with
  | .error e => .error e
  | .ok x => if x.valid then .ok x else .error .notSeeded

/-- Checks 8, 10 and 11: the generator is a 64-bit one, so the context can be fed (R272). -/
def State.checkFeedable (s : State) (c : Nibble) : Except Status Context :=
  match s.checkSeeded c with
  | .error e => .error e
  | .ok x => if width x.alg = 64 then .ok x else .error .algMismatch

/-- Checks 8 and 10 to 12: the range of a bounded draw is not 0, tested last (R239, R272). -/
def State.checkRange (s : State) (c : Nibble) (range : U32) : Except Status Context :=
  match s.checkFeedable c with
  | .error e => .error e
  | .ok x => if range = 0 then .error .invalidRange else .ok x

/-! ### The intake of words -/

/-- Remove a decoded command from `INBUF`; `rest` are the words after it, none in any state a run
reaches (R27, R71). -/
def State.consume (s : State) (rest : List Word) : State := { s with inbuf := rest }

/-- Take the next word of the command being received from the port into `INBUF`; with no word in
the port the block waits and nothing changes (R27, R307; log entry 6). -/
def State.receive (s : State) : State :=
  match s.port with
  | [] => s
  | w :: ws => { s with inbuf := s.inbuf ++ [w], port := ws }

/-! ### Reset and the host -/

/-- The reset event (R300): every context, `PHASE` and `INBUF` take their reset values and no
response is emitted.  The words waiting in the port and the responses already emitted are outside
the block and stay (log entry 7). -/
def State.applyReset (s : State) : State :=
  { s with
    ctxs := s.ctxs.map fun _ => Context.reset
    phase := .idle
    inbuf := []
    resetIn := false }

/-- The host sends words: they wait in the port until the block takes them (R303, R309). -/
def State.hostSend (s : State) (ws : List Word) : State := { s with port := s.port ++ ws }

/-- The host applies reset, at any time (R300, R309): the next step acts on it. -/
def State.hostReset (s : State) : State := { s with resetIn := true }

end Sys2Proof.Machine
end

