-- ==== Sys2Proof/Machine/Transitions.lean ====
section
/-!
DEFINITION. Machine/Transitions.lean: the nine transition functions (R130 to R138) and `advance`
(R139).  Each takes the words of a context and gives the new words and the sample; a 32-bit word is
read as bits 31:0 of its slot and written zero-extended (R23), and so is a 32-bit sample (R79).
The names follow the pseudocode of the rules.
-/

namespace Sys2Proof.Machine

/-- xorshift32 (R130). -/
def xorshift32 (w : Words) : Words × Word :=
  let a := lo32 w.w0
  let a := a ^^^ shlN a 13
  let a := a ^^^ shrN a 17
  let a := a ^^^ shlN a 5
  ({ w with w0 := zext64 a }, zext64 a)

/-- xorshift64 (R131). -/
def xorshift64 (w : Words) : Words × Word :=
  let x := w.w0
  let x := x ^^^ shlN x 13
  let x := x ^^^ shrN x 7
  let x := x ^^^ shlN x 17
  ({ w with w0 := x }, x)

/-- xorshift128 (R132). -/
def xorshift128 (w : Words) : Words × Word :=
  let s := lo32 w.w0
  let t := lo32 w.w3
  let d := lo32 w.w2
  let c := lo32 w.w1
  let b := s
  let t := t ^^^ shlN t 11
  let t := t ^^^ shrN t 8
  let a := t ^^^ s ^^^ shrN s 19
  ({ w with w0 := zext64 a, w1 := zext64 b, w2 := zext64 c, w3 := zext64 d }, zext64 a)

/-- xorshift128+ (R133, D17). -/
def xorshift128p (w : Words) : Words × Word :=
  let s1 := w.w0
  let s0 := w.w1
  let result := addN s0 s1
  let s1 := s1 ^^^ shlN s1 23
  ({ w with w0 := s0, w1 := s1 ^^^ s0 ^^^ shrN s1 18 ^^^ shrN s0 5 }, result)

/-- The state update that xoshiro128++ and xoshiro256++ share, at width `n` with shift `sh` and
rotation `rot` (R134, R135). -/
def xoshiroUpdate {n : Nat} (sh rot : Nat) (s0 s1 s2 s3 : BitVec n) :
    BitVec n × BitVec n × BitVec n × BitVec n :=
  let t := shlN s1 sh
  let s2 := s2 ^^^ s0
  let s3 := s3 ^^^ s1
  let s1 := s1 ^^^ s2
  let s0 := s0 ^^^ s3
  let s2 := s2 ^^^ t
  let s3 := rotlN s3 rot
  (s0, s1, s2, s3)

/-- xoshiro128++ (R134). -/
def xoshiro128pp (w : Words) : Words × Word :=
  let s0 := lo32 w.w0
  let s3 := lo32 w.w3
  let result := addN (rotlN (addN s0 s3) 7) s0
  let (s0, s1, s2, s3) := xoshiroUpdate 9 11 s0 (lo32 w.w1) (lo32 w.w2) s3
  ({ w with w0 := zext64 s0, w1 := zext64 s1, w2 := zext64 s2, w3 := zext64 s3 }, zext64 result)

/-- xoshiro256++ (R135): rotations 23 and 45, shift 17 (conflict C2). -/
def xoshiro256pp (w : Words) : Words × Word :=
  let result := addN (rotlN (addN w.w0 w.w3) 23) w.w0
  let (s0, s1, s2, s3) := xoshiroUpdate 17 45 w.w0 w.w1 w.w2 w.w3
  ({ w with w0 := s0, w1 := s1, w2 := s2, w3 := s3 }, result)

/-- splitmix32 with the constants `p` (R136); the stored state is the advanced word (D16). -/
def splitmix32 (p : Sm32) (w : Words) : Words × Word :=
  let x := addN (lo32 w.w0) p.inc
  let z := x
  let z := mulN (z ^^^ shrN z p.sh1) p.mul1
  let z := mulN (z ^^^ shrN z p.sh2) p.mul2
  let z := z ^^^ shrN z p.sh3
  ({ w with w0 := zext64 x }, zext64 z)

/-- splitmix64 (R137). -/
def splitmix64 (w : Words) : Words × Word :=
  let x := addN w.w0 0x9E3779B97F4A7C15
  let z := x
  let z := mulN (z ^^^ shrN z 30) 0xBF58476D1CE4E5B9
  let z := mulN (z ^^^ shrN z 27) 0x94D049BB133111EB
  let z := z ^^^ shrN z 31
  ({ w with w0 := x }, z)

/-- xorwow (R138): the counter is incremented before the sum (D13). -/
def xorwow (w : Words) : Words × Word :=
  let t := lo32 w.w4
  let s := lo32 w.w0
  let x4 := lo32 w.w3
  let x3 := lo32 w.w2
  let x2 := lo32 w.w1
  let x1 := s
  let t := t ^^^ shrN t 2
  let t := t ^^^ shlN t 1
  let t := t ^^^ s ^^^ shlN s 4
  let counter := addN (lo32 w.w5) 362437
  (⟨zext64 t, zext64 x1, zext64 x2, zext64 x3, zext64 x4, zext64 counter⟩,
    zext64 (addN t counter))

/-- The transition function of an algorithm (R76). -/
def transition : Alg → Words → Words × Word
  | .xorshift32, w => xorshift32 w
  | .xorshift64, w => xorshift64 w
  | .xorshift128, w => xorshift128 w
  | .xorshift128p, w => xorshift128p w
  | .xoshiro128pp, w => xoshiro128pp w
  | .xoshiro256pp, w => xoshiro256pp w
  | .splitmix32, w => splitmix32 Config.sm32 w
  | .splitmix64, w => splitmix64 w
  | .xorwow, w => xorwow w

/-- `advance(c)`: the context with its new words, and the sample (R139).  It touches no other
field. -/
def Context.advance (x : Context) : Context × Word :=
  ({ x with w := (transition x.alg x.w).1 }, (transition x.alg x.w).2)

end Sys2Proof.Machine
end

