-- ==== Sys2Proof/Machine/BoundedFamily.lean ====
section
/-!
DEFINITION. Machine/BoundedFamily.lean: the feeder (R230), the thresholds (R232, R233), one step of
the reduction (R235, R236), and FEED32, BDRAW_DF and BDRAW_DA (43_bounded.md).
-/

namespace Sys2Proof.Machine

/-- `feed(c)`, one 32-bit draw (R230): the high half of a fresh sample first, its low half next. -/
def Context.feed (x : Context) : Context × U32 :=
  if x.half then ({ x with half := false, cache := 0 }, x.cache)
  else ({ x.advance.1 with half := true, cache := lo32 x.advance.2 }, hi32 x.advance.2)

/-- FEED32 (R231). -/
def execFeed32 (c : Nibble) (s : State) : Host.Outcome State Fault Refusal :=
  .next <|
    match s.checkFeedable c with
    | .error e => s.fail e
    | .ok x => (s.setCtx c x.feed.1).finish .ok [zext64 x.feed.2]

/-- `threshold_DF(range)` (R232). -/
def thresholdDf (range : U32) : U32 := umod (neg32 range) range

/-- `threshold_DA(range)` (R233): at most two conditional subtractions, then the remainder. -/
def thresholdDa (range : U32) : U32 :=
  let t := neg32 range
  if t ≥ range then
    let t := t - range
    if t ≥ range then
      let t := t - range
      if t ≥ range then umod t range else t
    else t
  else t

/-- `threshold_V(range)` (R235). -/
def threshold : Variant → U32 → U32
  | .df, range => thresholdDf range
  | .da, range => thresholdDa range

/-- Step 0 of a bounded draw whose checks have passed on context `x` (R236): one feed, accepted
without a threshold when `low ≥ range`, and tested against the threshold before any redraw (D18). -/
def bdrawFirst (v : Variant) (c : Nibble) (range : U32) (x : Context) (s : State) : State :=
  let m := mulw x.feed.2 range
  let s := s.setCtx c x.feed.1
  if lo32 m ≥ range then s.finish .ok [zext64 (hi32 m)]
  else
    let t := threshold v range
    if lo32 m ≥ t then s.finish .ok [zext64 (hi32 m)]
    else s.setPhase (.loop c range t m v)

/-- Step `k ≥ 1` of a bounded draw in its rejection loop (R236): one feed.  There is no iteration
limit (R304). -/
def bdrawRedraw (v : Variant) (c : Nibble) (range t : U32) (x : Context) (s : State) : State :=
  let m := mulw x.feed.2 range
  let s := s.setCtx c x.feed.1
  if lo32 m ≥ t then s.finish .ok [zext64 (hi32 m)]
  else s.setPhase (.loop c range t m v)

/-- A context that can be fed: it is seeded and holds a 64-bit algorithm (R230). -/
def Context.feedable (x : Context) : Bool := x.valid && width x.alg == 64

/-- The loop step of the sequencer (R236) on the context the phase names. -/
def bdrawLoop (v : Variant) (c : Nibble) (range t : U32) (s : State) :
    Host.Outcome State Fault Refusal :=
  match s.ctx? c with
  | none => .fault .loopOnUnfeedable
  | some x =>
    if x.feedable then .next (bdrawRedraw v c range t x s) else .fault .loopOnUnfeedable

/-- A bounded draw (R237, R238): its checks, then step 0. -/
def bdraw (v : Variant) (c : Nibble) (range : U32) (s : State) : State :=
  match s.checkRange c range with
  | .error e => s.fail e
  | .ok x => bdrawFirst v c range x s

/-- BDRAW_DF (R237). -/
def execBdrawDf (c : Nibble) (range : U32) (s : State) : Host.Outcome State Fault Refusal :=
  .next (bdraw .df c range s)

/-- BDRAW_DA (R238). -/
def execBdrawDa (c : Nibble) (range : U32) (s : State) : Host.Outcome State Fault Refusal :=
  .next (bdraw .da c range s)

end Sys2Proof.Machine
end

