-- ==== Sys2Proof/Machine/ConversionFamily.lean ====
section
/-!
DEFINITION. Machine/ConversionFamily.lean: the two conversions to a binary64 pattern (R202, R203),
`draw64` (R206), and CVTM, CVTB, NEXTD_M and NEXTD_B (42_conversion.md).  Both conversions are
exact, so the patterns are computed by integer operations (R201).
-/

namespace Sys2Proof.Machine

/-- The binary64 pattern of the real number `v * 2^-k`, for `v < 2^53` and `k` at most 53: +0.0 for
`v = 0`, and else the normal number whose leading one is bit `floor(log2 v)` of `v` (R202, R203). -/
def scaledPattern (v : Word) (k : Nat) : Word :=
  if v = 0 then 0
  else
    let e := v.toNat.log2
    shlN (BitVec.ofNat 64 (1023 + e - k)) 52 ||| (shlN v (52 - e) &&& 0x000FFFFFFFFFFFFF)

/-- `conv_mul(x)`, the multiplicative conversion `(x >> 11) * 2^-53` (R202). -/
def convMul (x : Word) : Word := scaledPattern (shrN x 11) 53

/-- `conv_bit(x)`, the bit-construction conversion, whose value is `(x >> 12) * 2^-52` (R203). -/
def convBit (x : Word) : Word := scaledPattern (shrN x 12) 52

/-- `draw64(c)`: one sample of a 64-bit algorithm, or two of a 32-bit one with the first drawn in
the high half; the feeder is not used (R206). -/
def Context.draw64 (x : Context) : Context × Word :=
  if width x.alg = 64 then x.advance
  else
    let (x1, s1) := x.advance
    let (x2, s2) := x1.advance
    (x2, concat32 (lo32 s1) (lo32 s2))

/-- Draw 64 bits from context `c` and answer with their conversion by `conv` (R207, R208). -/
def drawConverted (conv : Word → Word) (c : Nibble) (s : State) : State :=
  match s.checkSeeded c with
  | .error e => s.fail e
  | .ok x => (s.setCtx c x.draw64.1).finish .ok [conv x.draw64.2]

/-- CVTM (R204). -/
def execCvtm (x : Word) (s : State) : Host.Outcome State Fault Refusal :=
  .next (s.finish .ok [convMul x])

/-- CVTB (R205). -/
def execCvtb (x : Word) (s : State) : Host.Outcome State Fault Refusal :=
  .next (s.finish .ok [convBit x])

/-- NEXTD_M (R207). -/
def execNextdM (c : Nibble) (s : State) : Host.Outcome State Fault Refusal :=
  .next (drawConverted convMul c s)

/-- NEXTD_B (R208). -/
def execNextdB (c : Nibble) (s : State) : Host.Outcome State Fault Refusal :=
  .next (drawConverted convBit c s)

end Sys2Proof.Machine
end

