-- ==== Sys2Proof/Machine/Flags.lean ====
section
/-!
DEFINITION. Machine/Flags.lean: the flags of the block are `VALID` and `HALF` of each context (R31);
the arithmetic writes none (R111).  They are read, with `ALG`, as the context control word (R26).
-/

namespace Sys2Proof.Machine

/-- A flag as a bit: 1 when set. -/
def flagBit (b : Bool) : Word := if b then 1 else 0

/-- `CTXCTL`, the context control word: `ALG` in bits 3:0, `VALID` in bit 4, `HALF` in bit 5, zero
above (R26, R142). -/
def ctxctl (x : Context) : Word :=
  x.alg.code.setWidth 64 ||| shlN (flagBit x.valid) 4 ||| shlN (flagBit x.half) 5

end Sys2Proof.Machine
end

