-- ==== Sys2Proof/Machine/GeneratorFamily.lean ====
section
/-!
DEFINITION. Machine/GeneratorFamily.lean: SEED, NEXT and RDST (41_generators.md part 2).
-/

namespace Sys2Proof.Machine

/-- The context a successful SEED leaves: the seed's words and an empty feeder (R140, R33). -/
def Context.seeded (a : Alg) (p : List Word) : Context :=
  { valid := true, alg := a, w := Words.ofPayload p, half := false, cache := 0 }

/-- SEED (R140): check 8, then check 9, then the context is written. -/
def execSeed (c : Nibble) (a : Alg) (p : List Word) (s : State) :
    Host.Outcome State Fault Refusal :=
  .next <|
    match s.checkContext c with
    | .error e => s.fail e
    | .ok _ =>
      if seedLegal a p then (s.setCtx c (Context.seeded a p)).finish .ok []
      else s.fail .precondition

/-- NEXT (R141). -/
def execNext (c : Nibble) (s : State) : Host.Outcome State Fault Refusal :=
  .next <|
    match s.checkSeeded c with
    | .error e => s.fail e
    | .ok x => (s.setCtx c x.advance.1).finish .ok [x.advance.2]

/-- The eight result words of RDST (R79, R142). -/
def Context.readWords (x : Context) : List Word :=
  [ctxctl x, x.w.w0, x.w.w1, x.w.w2, x.w.w3, x.w.w4, x.w.w5, zext64 x.cache]

/-- RDST (R142): legal on an unseeded context, and it changes nothing. -/
def execRdst (c : Nibble) (s : State) : Host.Outcome State Fault Refusal :=
  .next <|
    match s.checkContext c with
    | .error e => s.fail e
    | .ok x => s.finish .ok x.readWords

end Sys2Proof.Machine
end

