-- ==== Sys2Proof/Machine/Dispatch.lean ====
section
/-!
DEFINITION. Machine/Dispatch.lean: what a decoded command does, one arm per row of the opcode table.
`exec i s` runs the command `i` from the state `s` whose INBUF no longer holds its words.
-/

namespace Sys2Proof.Machine

def exec (i : Instr) (s : State) : Host.Outcome State Fault Refusal :=
  match i with
  | .seed c alg payload => Sys2Proof.Machine.execSeed c alg payload s
  | .next c => Sys2Proof.Machine.execNext c s
  | .feed32 c => Sys2Proof.Machine.execFeed32 c s
  | .bdrawDf c range => Sys2Proof.Machine.execBdrawDf c range s
  | .bdrawDa c range => Sys2Proof.Machine.execBdrawDa c range s
  | .cvtm x => Sys2Proof.Machine.execCvtm x s
  | .cvtb x => Sys2Proof.Machine.execCvtb x s
  | .nextdM c => Sys2Proof.Machine.execNextdM c s
  | .nextdB c => Sys2Proof.Machine.execNextdB c s
  | .rdst c => Sys2Proof.Machine.execRdst c s

end Sys2Proof.Machine
end

