-- ==== Sys2Proof/Machine/Step.lean ====
section
/-!
DEFINITION. Machine/Step.lean: one step of the sequencer, and the host's placing of a command where
the next step decodes it.
-/

namespace Sys2Proof.Machine

/-- One step.  An asserted reset input comes first, at any time (R300).  Inside a rejection loop the
step is one feed (R236), and no word is taken from the port (R303).  When idle, a complete command
in INBUF is decoded and executed (R28), an illegal one answered (R80), and otherwise one more word is
taken from the port, if there is one (R71, R307). -/
def step (s : State) : Host.Outcome State Fault Refusal :=
  if s.resetIn then .next s.applyReset
  else
    match s.phase with
    | .loop c range t _ v => bdrawLoop v c range t s
    | .idle =>
      match decode s.inbuf with
      | .incomplete => .next s.receive
      | .illegal _ rest => .next ((s.consume rest).fail .illegalCommand)
      | .command i rest => exec i (s.consume rest)

/-- `s` with the command whose bits are `w` complete in INBUF, the sequencer idle and the reset
input low, so that the next step decodes and executes it (log entry 9). -/
def State.withFetchWord (s : State) (nbits w : Nat) : State :=
  { s with phase := .idle, resetIn := false, inbuf := tableWords nbits w }

end Sys2Proof.Machine
end

