-- ==== Sys2Proof/Machine/Run.lean ====
section
/-!
DEFINITION. Machine/Run.lean: several steps, and a run of the block: its launch state, its complete
commands, when it is over, and its observation (R310).
-/

namespace Sys2Proof.Machine

/-- `n` steps of the machine, stopping at the first fault or refusal. -/
def stepsFrom : Nat → State → Host.Outcome State Fault Refusal
  | 0, s => .next s
  | n + 1, s =>
    match step s with
    | .next t => stepsFrom n t
    | .fault r => .fault r
    | .refused r => .refused r

/-- A complete command, legal or not: a header and exactly the `NW` payload words it announces
(R71, R306). -/
def isCompleteCommand (ws : List Word) : Bool :=
  match ws with
  | [] => false
  | h :: ps => ps.length == (nwOf h).toNat

/-- How many commands a sequence of words consists of, when its first `missing` words are payload of
a command before it: each header announces its `NW` payload words (R71).  None where the sequence
ends inside a command. -/
def countCommands (missing : Nat) (ws : List Word) : Option Nat :=
  match missing, ws with
  | 0, [] => some 0
  | _ + 1, [] => none
  | 0, h :: rest => (countCommands (nwOf h).toNat rest).map (· + 1)
  | n + 1, _ :: rest => countCommands n rest

/-- The commands received or waiting that have not begun, legal or not; none where the last of them
has not arrived whole (R27, R71, R303). -/
def State.waiting (s : State) : Option Nat := countCommands 0 (s.inbuf ++ s.port)

/-- The commands executing: 1 inside a rejection loop (R28). -/
def Phase.executing : Phase → Nat
  | .idle => 0
  | .loop _ _ _ _ _ => 1

/-- The responses a state still owes: one for the command executing, and one for each that waits
(R29, R303). -/
def State.owed (s : State) : Option Nat := s.waiting.map (s.phase.executing + ·)

/-- Between commands: nothing is executing, no word has been received or waits, and no reset is
pending.  A run ends in such a state (R27, R310). -/
def State.ready (s : State) : Bool :=
  s.phase == .idle && s.inbuf == [] && s.port == [] && !s.resetIn

/-- A run: the state it is launched from, and the commands the host sends, in order (R310). -/
structure Run where
  launch : State
  commands : List (List Word)
  deriving DecidableEq, Repr

/-- A run as R310 defines it: launched from any block state, during a command too, and each command
complete.  R310 says nothing of a run during which reset is applied, so no reset is pending. -/
def Run.WellFormed (r : Run) : Prop :=
  r.launch.resetIn = false ∧ ∀ ws ∈ r.commands, isCompleteCommand ws = true

/-- The launch state with the words of all the commands waiting in the port (R303, log entry 19). -/
def Run.start (r : Run) : State := r.launch.hostSend r.commands.flatten

/-- The run after `n` steps. -/
def Run.after (r : Run) (n : Nat) : Host.Outcome State Fault Refusal := stepsFrom n r.start

/-- In state `t` the run is over: every command has been decoded and its response emitted, `PHASE`
is IDLE and `INBUF` is empty (R310).  The responses the launch state owes come first (R29).  Where a
command in it has not arrived whole, the first words sent are that command's
payload (R71), so a command of the list is not decoded and the run is never over (log entry 19). -/
def Run.isOver (r : Run) (t : State) : Bool :=
  t.ready &&
    r.launch.owed.any fun k =>
      t.responses.length == r.launch.responses.length + k + r.commands.length

/-- The observation of a run (R310): every response emitted since its launch. -/
structure Observation where
  /-- the responses emitted since the launch, oldest first -/
  responses : List Response
  /-- the final contexts `C[0]` to `C[NCTX - 1]` -/
  contexts : List Context
  deriving DecidableEq, Repr

/-- What is observed of the run in state `t`. -/
def Run.observe (r : Run) (t : State) : Observation :=
  { responses := t.responses.drop r.launch.responses.length, contexts := t.ctxs }

/-- The observation after `n` steps; none while the run is not over: a wait for words and a state
inside the rejection loop are no end (R310). -/
def Run.observation (r : Run) (n : Nat) : Option Observation :=
  match r.after n with
  | .next t => if r.isOver t then some (r.observe t) else none
  | .fault _ => none
  | .refused _ => none

end Sys2Proof.Machine
end

