-- ==== Sys2Proof/Safety.lean ====
section
/-!
DEFINITION. Safety.lean: what the claims are stated in: the invariant of the reachable states (R23,
R24, R25, R28, R78), the zero fixed points (R144), the value of a binary64 pattern (R200), the
sequence of feeds of a context (R235), and equality of states up to the variant of a bounded draw
(R243).
-/

namespace Sys2Proof.Machine

/-- The invariants of one context: R23 (1) to (3), R24 and R25. -/
structure Context.Inv (x : Context) : Prop where
  /-- R23 (1): a slot past the arity is zero -/
  unused : ∀ i, arity x.alg ≤ i → x.w.get i = 0
  /-- R23 (2): the words of a 32-bit algorithm are below `2^32` -/
  narrow : width x.alg = 32 → ∀ i, (x.w.get i).toNat < 2 ^ 32
  /-- R23 (3), R24: `VALID` is 0 only in a context that reset has left -/
  unseeded : x.valid = false → x = Context.reset
  /-- R25: an empty feeder has a zero cache -/
  empty : x.half = false → x.cache = 0
  /-- R25: only a 64-bit algorithm has a cached half -/
  cached : x.half = true → width x.alg = 64

/-- The invariant of the block in every reachable state. -/
structure State.Inv (s : State) : Prop where
  /-- R20: `NCTX` is 1 to 16 -/
  count : 1 ≤ s.ctxs.length ∧ s.ctxs.length ≤ 16
  /-- every context meets R23 to R25 -/
  contexts : ∀ x ∈ s.ctxs, x.Inv
  /-- R27, R71: INBUF holds words of one command only -/
  inbuf : ∀ h ps, s.inbuf = h :: ps → ps.length ≤ (nwOf h).toNat
  /-- R28, R236: inside the rejection loop INBUF is empty, the context can be fed, the range is not
  0, the threshold is that of the variant, and the last draw was rejected -/
  looping : ∀ c range t m v, s.phase = .loop c range t m v →
    s.inbuf = [] ∧ range ≠ 0 ∧ t = threshold v range ∧ lo32 m < t ∧
      (∃ y, m = mulw y range) ∧ ∃ x, s.ctx? c = some x ∧ x.feedable = true
  /-- R78, R79: a response that is not OK has no result word, and none has more than eight -/
  responses : ∀ r ∈ s.responses, (r.status ≠ .ok → r.results = []) ∧ r.results.length ≤ 8

/-- The words of an algorithm are its zero fixed point (R144); for xorwow that is about the five
words `x[0..4]`, and splitmix has none (R145).  A 32-bit word is read as bits 31:0 of its slot. -/
def isZeroState (a : Alg) (w : Words) : Bool :=
  match a with
  | .xorshift32 => lo32 w.w0 == 0
  | .xorshift64 => w.w0 == 0
  | .xorshift128 | .xoshiro128pp =>
    lo32 w.w0 == 0 && lo32 w.w1 == 0 && lo32 w.w2 == 0 && lo32 w.w3 == 0
  | .xorshift128p => w.w0 == 0 && w.w1 == 0
  | .xoshiro256pp => w.w0 == 0 && w.w1 == 0 && w.w2 == 0 && w.w3 == 0
  | .splitmix32 | .splitmix64 => false
  | .xorwow =>
    lo32 w.w0 == 0 && lo32 w.w1 == 0 && lo32 w.w2 == 0 && lo32 w.w3 == 0 && lo32 w.w4 == 0

/-- No seeded context holds the zero fixed point of its algorithm (R144). -/
def State.NonDegenerate (s : State) : Prop :=
  ∀ x ∈ s.ctxs, x.valid = true → isZeroState x.alg x.w = false

/-- The value of a binary64 pattern, for the patterns R200 gives one: the pattern 0 and every
pattern whose exponent field is 1 to 2046. -/
def binary64Value (d : Word) : Option ℚ :=
  let e : Nat := (d.extractLsb' 52 11).toNat
  if d = 0 then some 0
  else if 1 ≤ e ∧ e ≤ 2046 then
    some ((-1) ^ (d.extractLsb' 63 1).toNat * (1 + ((d.extractLsb' 0 52).toNat : ℚ) / 2 ^ 52) *
      2 ^ ((e : ℤ) - 1023))
  else none

/-- The context after the feeds 0 to `k` from `x`, and the value of feed `k` (R235). -/
def Context.feedAt (x : Context) : Nat → Context × U32
  | 0 => x.feed
  | k + 1 => (x.feedAt k).1.feed

/-- The product `m` of feed `k` with `range` (R235). -/
def Context.productAt (x : Context) (range : U32) (k : Nat) : Word := mulw (x.feedAt k).2 range

/-- The phase with the variant of the draw forgotten (R243). -/
def Phase.forgetVariant : Phase → Phase
  | .idle => .idle
  | .loop c range t m _ => .loop c range t m .df

/-- The state with the variant of the running draw forgotten: `variant` is a field of the hidden
`PHASE`, and the two variants are compared on everything else (R243). -/
def State.forgetVariant (s : State) : State := { s with phase := s.phase.forgetVariant }

/-- `forgetVariant` on the outcome of a step or a run. -/
def forgetOutcome : Host.Outcome State Fault Refusal → Host.Outcome State Fault Refusal
  | .next s => .next s.forgetVariant
  | .fault r => .fault r
  | .refused r => .refused r

/-- The context a command names (R20); CVTM and CVTB name none. -/
def namedContext : Instr → Option Nibble
  | .seed c _ _ => some c
  | .next c => some c
  | .feed32 c => some c
  | .bdrawDf c _ => some c
  | .bdrawDa c _ => some c
  | .cvtm _ => none
  | .cvtb _ => none
  | .nextdM c => some c
  | .nextdB c => some c
  | .rdst c => some c

end Sys2Proof.Machine
end

