-- ==== Sys2Proof/Certificates/Slice0/Obligations.lean ====
section
/-!
DEFINITION. Certificates/Slice0/Obligations.lean: the statements for the provers.  Each docstring names the
rule of spec/ it formalises.  The effects are written out as record updates, so that a statement of a
command's result is also its frame: every field the update does not name is unchanged.
-/

open Sys2Proof Sys2Proof.Machine

/-! ### Encoding and framing -/

/-- R70 to R74, R77, R83: the decoder reads back every command the encoding can carry, with every
field at every value, and leaves the words after it. -/
def Obligations.DecodeInvertsEncode : Prop :=
  ∀ (i : Instr) (more : List Word), i.WellFormed → decode (encode i ++ more) = .command i more

/-- R73 to R75: a command has one spelling; what the decoder accepts is the encoding of the command
it names, followed by the words it leaves. -/
def Obligations.DecodedCommandReencodes : Prop :=
  ∀ (ws more : List Word) (i : Instr), decode ws = .command i more →
    i.WellFormed ∧ ws = encode i ++ more

/-- R75: a header with its payload decodes as a row's command exactly when it matches the row (and,
for SEED, has `ALG <= 8`); one that matches no row is illegal; no two rows match one header.  The spec marks R75
as derived from R72 and R74. -/
def Obligations.HeaderDecodesByMatchAndMask : Prop :=
  (∀ (h : Word) (ps : List Word), (nwOf h).toNat ≤ ps.length → ∀ r ∈ opTable,
    ((∃ i more, decode (h :: ps) = .command i more ∧ i.mnemonic = r.mnemonic) ↔
      (h &&& r.maskBits = r.matchBits ∧ (r.mnemonic = "SEED" → (algOf h).toNat ≤ 8)))) ∧
  (∀ (h : Word) (ps : List Word), (nwOf h).toNat ≤ ps.length →
    (∀ r ∈ opTable, h &&& r.maskBits ≠ r.matchBits) →
      ∃ why more, decode (h :: ps) = .illegal why more) ∧
  (∀ r ∈ opTable, ∀ q ∈ opTable, ∀ h : Word,
    h &&& r.maskBits = r.matchBits → h &&& q.maskBits = q.matchBits → r = q)

/-- R71, R82: the length of a command is `1 + NW` words, known from the header alone, for every
header including an illegal one; nothing is decoded from fewer words. -/
def Obligations.CommandLengthIsOnePlusPayloadCount : Prop :=
  decode [] = .incomplete ∧
  ∀ (h : Word) (ps : List Word),
    (ps.length < (nwOf h).toNat → decode (h :: ps) = .incomplete) ∧
    ((nwOf h).toNat ≤ ps.length →
      (∃ i, decode (h :: ps) = .command i (ps.drop (nwOf h).toNat)) ∨
      (∃ why, decode (h :: ps) = .illegal why (ps.drop (nwOf h).toNat)))

/-- R74, R76, R83 and 95_test_vectors.md section 3: command words written out from the spec decode
to the commands they stand for: a SEED of each of the nine algorithm codes, and one of every other
opcode. -/
def Obligations.SpecWordsDecodeToTheirCommands : Prop :=
  decode [0x0111100000000000, 0x309] = .command (.seed 1 .xorshift64 [777]) [] ∧
  decode [0x0104400000000000, 1, 2, 3, 4] = .command (.seed 0 .xoshiro128pp [1, 2, 3, 4]) [] ∧
  decode [0x0100100000000000, 1] = .command (.seed 0 .xorshift32 [1]) [] ∧
  decode [0x0102400000000000, 1, 2, 3, 4] = .command (.seed 0 .xorshift128 [1, 2, 3, 4]) [] ∧
  decode [0x0103200000000000, 1, 2] = .command (.seed 0 .xorshift128p [1, 2]) [] ∧
  decode [0x0105400000000000, 1, 2, 3, 4] = .command (.seed 0 .xoshiro256pp [1, 2, 3, 4]) [] ∧
  decode [0x0106100000000000, 0] = .command (.seed 0 .splitmix32 [0]) [] ∧
  decode [0x0107100000000000, 0] = .command (.seed 0 .splitmix64 [0]) [] ∧
  decode [0x0108600000000000, 1, 2, 3, 4, 5, 0] = .command (.seed 0 .xorwow [1, 2, 3, 4, 5, 0]) [] ∧
  decode [0x0200000000000000] = .command (.next 0) [] ∧
  decode [0x0310000000000000] = .command (.feed32 1) [] ∧
  decode [0x04100000000003E8] = .command (.bdrawDf 1 1000) [] ∧
  decode [0x0520000080000001] = .command (.bdrawDa 2 0x80000001) [] ∧
  decode [0x0600100000000000, 0xFFFFFFFFFFFFFFFF] = .command (.cvtm 0xFFFFFFFFFFFFFFFF) [] ∧
  decode [0x0700100000000000, 0xFFFFFFFFFFFFFFFF] = .command (.cvtb 0xFFFFFFFFFFFFFFFF) [] ∧
  decode [0x0800000000000000] = .command (.nextdM 0) [] ∧
  decode [0x0900000000000000] = .command (.nextdB 0) [] ∧
  decode [0x0A20000000000000] = .command (.rdst 2) []

/-- The conditions of R80 under which a command is illegal, in the rule's order. -/
def Sys2Proof.Claims.IllegalHeader (h : Word) : Prop :=
  (opcOf h).toNat = 0x00 ∨ 0x0B ≤ (opcOf h).toNat ∨
  rsvOf h ≠ 0 ∨
  ((opcOf h).toNat ≠ 0x01 ∧ algOf h ≠ 0) ∨
  ((opcOf h).toNat = 0x01 ∧ 9 ≤ (algOf h).toNat) ∨
  ((opcOf h).toNat ≠ 0x04 ∧ (opcOf h).toNat ≠ 0x05 ∧ immOf h ≠ 0) ∨
  (((opcOf h).toNat = 0x06 ∨ (opcOf h).toNat = 0x07) ∧ (nwOf h).toNat ≠ 1) ∨
  ((opcOf h).toNat ≠ 0x01 ∧ (opcOf h).toNat ≠ 0x06 ∧ (opcOf h).toNat ≠ 0x07 ∧
    (nwOf h).toNat ≠ 0) ∨
  (((opcOf h).toNat = 0x06 ∨ (opcOf h).toNat = 0x07) ∧ ctxOf h ≠ 0)

/-- R80: a complete command is illegal exactly under the conditions of the rule, and the step that
decodes it consumes its words, answers ILLEGAL_COMMAND and changes nothing else. -/
def Obligations.IllegalCommandIsAnsweredAndConsumed : Prop :=
  ∀ (s : State) (h : Word) (ps : List Word),
    s.resetIn = false → s.phase = .idle → s.inbuf = h :: ps → ps.length = (nwOf h).toNat →
    ((∃ why, decode s.inbuf = .illegal why []) ↔ Sys2Proof.Claims.IllegalHeader h) ∧
    (Sys2Proof.Claims.IllegalHeader h →
      step s = .next { s with
        inbuf := [], responses := s.responses ++ [⟨.illegalCommand, []⟩] })

/-! ### The sequencer -/

/-- R27, R28: when the words at the head of INBUF decode to a command, the step is that command's
execution from the state whose INBUF no longer holds its words. -/
def Obligations.StepRunsTheDecodedCommand : Prop :=
  ∀ (s : State) (i : Instr) (more : List Word),
    s.resetIn = false → s.phase = .idle → decode s.inbuf = .command i more →
    step s = exec i { s with inbuf := more }

/-- R27, R307: a partial command is not decoded; the block takes the next word of the port, and with
none there it waits, however long, with INBUF holding what has arrived.  That a wait
is a step, and one word a step, are the model's (log entry 6). -/
def Obligations.PartialCommandWaitsForItsWords : Prop :=
  (∀ (s : State) (w : Word) (ws : List Word),
    s.resetIn = false → s.phase = .idle → decode s.inbuf = .incomplete → s.port = w :: ws →
    step s = .next { s with inbuf := s.inbuf ++ [w], port := ws }) ∧
  (∀ (s : State) (n : Nat),
    s.resetIn = false → s.phase = .idle → decode s.inbuf = .incomplete → s.port = [] →
    stepsFrom n s = .next s)

/-- R70, R71, R303: from an idle block with an empty INBUF, a command whose words wait in the port
is received in as many steps as it has words, changing nothing else, and the step after them is its
execution.  The port as a list and one word a step are the model's
(log entries 3 and 6). -/
def Obligations.CommandInThePortIsReceivedAndExecuted : Prop :=
  ∀ (s : State) (i : Instr) (more : List Word),
    i.WellFormed → s.resetIn = false → s.phase = .idle → s.inbuf = [] →
    s.port = encode i ++ more →
    stepsFrom (1 + i.payload.length) s = .next { s with inbuf := encode i, port := more } ∧
    step { s with inbuf := encode i, port := more } = exec i { s with port := more }

/-- R29, R58: a step emits at most one response, after those already emitted; when it does, it ran a
complete command or a loop step, no reset was pending, and it leaves the block IDLE; a step that
emits none is a reset, the intake of a word or a wait, or a draw that
is inside its rejection loop when the step ends.  That a reset keeps the responses already
emitted is the model's (log entry 7). -/
def Obligations.OneResponseWhenACommandEnds : Prop :=
  ∀ s t : State, step s = .next t →
    (s.resetIn = false ∧
      ((s.phase = .idle ∧ decode s.inbuf ≠ .incomplete) ∨
        ∃ c range th m v, s.phase = .loop c range th m v) ∧
      ∃ r, t.responses = s.responses ++ [r] ∧ t.phase = .idle) ∨
    (t.responses = s.responses ∧
      (s.resetIn = true ∨ (s.phase = .idle ∧ decode s.inbuf = .incomplete) ∨
        ∃ c range th m v, t.phase = .loop c range th m v))

/-- R303: while a bounded draw is inside its rejection loop the block takes no word from the port
and decodes nothing; the step answers the draw, or stays in the loop of the same draw. -/
def Obligations.RejectionLoopHoldsThePort : Prop :=
  ∀ (s t : State) (c : Nibble) (range th : U32) (m : Word) (v : Variant),
    s.resetIn = false → s.phase = .loop c range th m v → step s = .next t →
    t.port = s.port ∧ t.inbuf = s.inbuf ∧
    ((t.phase = .idle ∧ ∃ r, t.responses = s.responses ++ [⟨.ok, [r]⟩]) ∨
      (t.responses = s.responses ∧ ∃ m', t.phase = .loop c range th m' v))

/-! ### Reset -/

/-- R32: the value of every piece of the block's state after reset. -/
def Obligations.ResetStateHasTheResetValues : Prop :=
  State.reset.ctxs.length = Config.nctx ∧
  (∀ x ∈ State.reset.ctxs, x.valid = false ∧ x.alg.code = 0 ∧ (∀ i, x.w.get i = 0) ∧
    x.half = false ∧ x.cache = 0 ∧ ctxctl x = 0) ∧
  State.reset.phase = .idle ∧ State.reset.inbuf = []

/-- R300: reset applied in any state, also inside a rejection loop or with a command partly received:
every context takes its reset value, the block is IDLE with an empty INBUF, and no response is
emitted.  That one step acts on the input, which is then low, and that the responses already emitted
stay, is the model's (log entries 4 and 7). -/
def Obligations.ResetEventResetsFromAnyState : Prop :=
  ∀ s : State, s.resetIn = true → ∃ t, step s = .next t ∧
    t.ctxs.length = s.ctxs.length ∧
    (∀ x ∈ t.ctxs, x.valid = false ∧ x.alg.code = 0 ∧ (∀ i, x.w.get i = 0) ∧
      x.half = false ∧ x.cache = 0) ∧
    t.phase = .idle ∧ t.inbuf = [] ∧ t.responses = s.responses ∧ t.resetIn = false

/-- R301: after reset every context is unseeded and none is in a zero fixed point; SEED succeeds on a
legal seed, RDST answers eight zero words, the six drawing commands answer NOT_SEEDED, and CVTM and
CVTB work.  The spec marks R301 as derived from R300 and R24. -/
def Obligations.CommandsRightAfterReset : Prop :=
  (∀ x ∈ State.reset.ctxs, x.valid = false) ∧ State.reset.NonDegenerate ∧
  (∀ c : Nibble, c.toNat < Config.nctx →
    (∀ a p, seedLegal a p = true → ∃ t, exec (.seed c a p) State.reset = .next t ∧
      t.responses = [⟨.ok, []⟩]) ∧
    exec (.rdst c) State.reset =
      .next { State.reset with responses := [⟨.ok, [0, 0, 0, 0, 0, 0, 0, 0]⟩] } ∧
    ∀ i : Instr,
      i = .next c ∨ i = .feed32 c ∨ (∃ range, i = .bdrawDf c range) ∨
        (∃ range, i = .bdrawDa c range) ∨ i = .nextdM c ∨ i = .nextdB c →
      exec i State.reset = .next { State.reset with responses := [⟨.notSeeded, []⟩] }) ∧
  ∀ x : Word,
    exec (.cvtm x) State.reset =
      .next { State.reset with responses := [⟨.ok, [convMul x]⟩] } ∧
    exec (.cvtb x) State.reset =
      .next { State.reset with responses := [⟨.ok, [convBit x]⟩] }

/-! ### Errors -/

/-- R271: a step that emits a response other than OK has consumed the command's words, writes no
field of any context, leaves the block IDLE and emits that one response with no result word. -/
def Obligations.FailedCommandWritesNothing : Prop :=
  ∀ (s t : State) (r : Response),
    s.resetIn = false → s.phase = .idle → step s = .next t →
    t.responses = s.responses ++ [r] → r.status ≠ .ok →
    ∃ h ps, s.inbuf = h :: ps ∧ (nwOf h).toNat ≤ ps.length ∧
      t = { s with
        inbuf := ps.drop (nwOf h).toNat, responses := s.responses ++ [⟨r.status, []⟩] }

/-- The status ladder of R272 on the raw header, its payload and the contexts, line by line; OK when
every check passes. -/
def Sys2Proof.Claims.checkedStatus (h : Word) (p : List Word) (ctxs : List Context) : Status :=
  let opc := (opcOf h).toNat
  let ctx := ctxs[(ctxOf h).toNat]?
  let converts := opc = 0x06 ∨ opc = 0x07
  let bounded := opc = 0x04 ∨ opc = 0x05
  let draws := opc = 0x02 ∨ opc = 0x03 ∨ bounded ∨ opc = 0x08 ∨ opc = 0x09
  if opc < 0x01 ∨ 0x0A < opc then .illegalCommand
  else if rsvOf h ≠ 0 then .illegalCommand
  else if opc ≠ 0x01 ∧ algOf h ≠ 0 then .illegalCommand
  else if ¬ bounded ∧ immOf h ≠ 0 then .illegalCommand
  else if opc ≠ 0x01 ∧ (nwOf h).toNat ≠ (if converts then 1 else 0) then .illegalCommand
  else if opc = 0x01 ∧ 8 < (algOf h).toNat then .illegalCommand
  else if converts ∧ ctxOf h ≠ 0 then .illegalCommand
  else if ¬ converts ∧ ctxs.length ≤ (ctxOf h).toNat then .badContext
  else if opc = 0x01 ∧ (Alg.ofCode (algOf h)).any (fun a => !seedLegal a p) then .precondition
  else if draws ∧ ctx.any (fun x => !x.valid) then .notSeeded
  else if (opc = 0x03 ∨ bounded) ∧ ctx.any (fun x => width x.alg == 32) then .algMismatch
  else if bounded ∧ immOf h = 0 then .invalidRange
  else .ok

/-- R272: the first check that fails gives the command's only status; a command that passes every
check that applies to it executes its rule, and then it fails in no other way: it answers OK or is
inside its rejection loop. -/
def Obligations.ChecksAreMadeInOrder : Prop :=
  ∀ (s : State) (h : Word) (ps : List Word),
    s.resetIn = false → s.phase = .idle → s.inbuf = h :: ps → ps.length = (nwOf h).toNat →
    (Sys2Proof.Claims.checkedStatus h ps s.ctxs ≠ .ok →
      step s = .next { s with
        inbuf := []
        responses := s.responses ++ [⟨Sys2Proof.Claims.checkedStatus h ps s.ctxs, []⟩] }) ∧
    (Sys2Proof.Claims.checkedStatus h ps s.ctxs = .ok →
      ∃ i t, decode s.inbuf = .command i [] ∧ step s = exec i { s with inbuf := [] } ∧
        step s = .next t ∧
        ((∃ rs, t.responses = s.responses ++ [⟨.ok, rs⟩]) ∨
          (t.responses = s.responses ∧ ∃ c range th m v, t.phase = .loop c range th m v)))

/-- R78, R81, R270: the code of each status, the layout of a response header, and that no status
code is above 0x06. -/
def Obligations.ResponseHeaderLayout : Prop :=
  Status.ok.code = 0x00 ∧ Status.precondition.code = 0x01 ∧ Status.invalidRange.code = 0x02 ∧
  Status.illegalCommand.code = 0x03 ∧ Status.notSeeded.code = 0x04 ∧
  Status.algMismatch.code = 0x05 ∧ Status.badContext.code = 0x06 ∧
  ∀ r : Response, r.results.length ≤ 15 →
    r.words = r.header :: r.results ∧
    r.header.extractLsb' 56 8 = r.status.code ∧ r.header.extractLsb' 48 8 = 0 ∧
    (r.header.extractLsb' 44 4).toNat = r.results.length ∧ r.header.extractLsb' 0 44 = 0 ∧
    r.status.code.toNat ≤ 0x06

/-! ### Whole-machine rules -/

/-- R20, R32: the block at reset meets the invariant of the reachable states, and no context holds
a zero fixed point. -/
def Obligations.InvariantsHoldAtReset : Prop :=
  State.reset.Inv ∧ State.reset.NonDegenerate

/-- R20, R23, R24, R25, R28, R78: from every state that meets the invariant the step answers a next
state, which meets it too and has the same number of contexts.  So no run from reset stops. -/
def Obligations.EveryStepKeepsTheInvariant : Prop :=
  ∀ s : State, s.Inv → ∃ t, step s = .next t ∧ t.Inv ∧ t.ctxs.length = s.ctxs.length

/-- R143, R144: no step takes a seeded context into the zero fixed point of its algorithm: SEED
refuses it, and no draw advances into it. -/
def Obligations.EveryStepKeepsGeneratorsNonDegenerate : Prop :=
  ∀ s t : State, s.NonDegenerate → step s = .next t → t.NonDegenerate

/-- R24: `VALID` becomes 1 only in the step of a successful SEED of that context, and 0 only in a
reset. -/
def Obligations.OnlySeedAndResetWriteValid : Prop :=
  ∀ (s t : State) (d : Nat) (x y : Context),
    step s = .next t → s.ctxs[d]? = some x → t.ctxs[d]? = some y →
    (x.valid = false → y.valid = true → s.resetIn = false ∧ s.phase = .idle ∧
      ∃ c a p more, decode s.inbuf = .command (.seed c a p) more ∧ c.toNat = d ∧
        seedLegal a p = true ∧ t.responses = s.responses ++ [⟨.ok, []⟩]) ∧
    (x.valid = true → y.valid = false → s.resetIn = true)

/-- R25: `HALF` and `CACHE` of a context change only in a reset, in a step of the rejection loop on
that context, or in the step of a SEED, FEED32 or bounded draw of that context; NEXT, NEXTD_M,
NEXTD_B, RDST and the conversions leave them. -/
def Obligations.OnlyFeedsSeedAndResetWriteTheFeeder : Prop :=
  ∀ (s t : State) (d : Nat) (x y : Context),
    step s = .next t → s.ctxs[d]? = some x → t.ctxs[d]? = some y →
    y.half ≠ x.half ∨ y.cache ≠ x.cache →
    s.resetIn = true ∨
    (s.resetIn = false ∧ ∃ c range th m v, s.phase = .loop c range th m v ∧ c.toNat = d) ∨
    s.resetIn = false ∧ s.phase = .idle ∧ ∃ c i more, decode s.inbuf = .command i more ∧ c.toNat = d ∧
      ((∃ a p, i = .seed c a p) ∨ i = .feed32 c ∨ (∃ range, i = .bdrawDf c range) ∨
        ∃ range, i = .bdrawDa c range)

/-- R20, R244: a command writes no context but the one it names, and so does a step of a rejection
loop; neither writes INBUF, the port or the reset input. -/
def Obligations.OtherContextsAreUnchanged : Prop :=
  (∀ (i : Instr) (s t : State), exec i s = .next t →
    (∀ d : Nat, (∀ c, namedContext i = some c → d ≠ c.toNat) → t.ctxs[d]? = s.ctxs[d]?) ∧
    t.ctxs.length = s.ctxs.length ∧ t.inbuf = s.inbuf ∧ t.port = s.port ∧
    t.resetIn = s.resetIn) ∧
  (∀ (v : Variant) (c : Nibble) (range th : U32) (s t : State),
    bdrawLoop v c range th s = .next t →
    (∀ d : Nat, d ≠ c.toNat → t.ctxs[d]? = s.ctxs[d]?) ∧
    t.ctxs.length = s.ctxs.length ∧ t.inbuf = s.inbuf ∧ t.port = s.port ∧
    t.resetIn = s.resetIn)

/-- R4, R20, R279: what a command does to the context it names, the phase it leaves and what it
answers depend on that context alone: two states that differ in everything else give the same. -/
def Obligations.CommandDependsOnlyOnItsContext : Prop :=
  (∀ (i : Instr) (s₁ s₂ t₁ t₂ : State),
    (∀ c, namedContext i = some c → s₁.ctx? c = s₂.ctx? c) →
    exec i s₁ = .next t₁ → exec i s₂ = .next t₂ →
    (∀ c, namedContext i = some c → t₁.ctx? c = t₂.ctx? c) ∧ t₁.phase = t₂.phase ∧
    ∃ rs, t₁.responses = s₁.responses ++ rs ∧ t₂.responses = s₂.responses ++ rs) ∧
  (∀ (v : Variant) (c : Nibble) (range th : U32) (s₁ s₂ t₁ t₂ : State),
    s₁.ctx? c = s₂.ctx? c →
    bdrawLoop v c range th s₁ = .next t₁ → bdrawLoop v c range th s₂ = .next t₂ →
    t₁.ctx? c = t₂.ctx? c ∧ t₁.phase = t₂.phase ∧
    ∃ rs, t₁.responses = s₁.responses ++ rs ∧ t₂.responses = s₂.responses ++ rs)

/-! ### Arithmetic primitives -/

/-- R101, R103, R104, R106 to R110: the primitives as functions of the integers their operands
stand for.  R103 and R104 give the shifts for `k < N`; that a shift by `N` or more is 0 is the
model's choice (log entry 10; D35: "a model may give them any definition"). -/
def Obligations.PrimitivesComputeModularIntegers : Prop :=
  (∀ (n : Nat) (a b : BitVec n), (addN a b).toNat = (a.toNat + b.toNat) % 2 ^ n ∧
    (mulN a b).toNat = (a.toNat * b.toNat) % 2 ^ n) ∧
  (∀ (n k : Nat) (a : BitVec n), k < n → (shlN a k).toNat = (a.toNat * 2 ^ k) % 2 ^ n ∧
    (shrN a k).toNat = a.toNat / 2 ^ k) ∧
  (∀ (n k : Nat) (a : BitVec n), n ≤ k → shlN a k = 0 ∧ shrN a k = 0) ∧
  (∀ a b : U32, (mulw a b).toNat = a.toNat * b.toNat ∧
    (neg32 a).toNat = (2 ^ 32 - a.toNat) % 2 ^ 32 ∧
    (b ≠ 0 → (umod a b).toNat = a.toNat - b.toNat * (a.toNat / b.toNat) ∧
      (umod a b).toNat < b.toNat) ∧
    (zext64 a).toNat = a.toNat ∧ (concat32 a b).toNat = a.toNat * 2 ^ 32 + b.toNat) ∧
  (∀ v : Word, (lo32 v).toNat = v.toNat % 2 ^ 32 ∧ (hi32 v).toNat = v.toNat / 2 ^ 32)

/-- R105: the rotation is the union of the two shifts, and bit `i` of the result is bit
`(i - k) mod N` of the operand. -/
def Obligations.RotationMovesBitsAround : Prop :=
  (∀ (n k : Nat) (a : BitVec n), 1 ≤ k → k ≤ n - 1 →
    rotlN a k = shlN a k ||| shrN a (n - k) ∧
    ∀ i, i < n → (rotlN a k).getLsbD i = a.getLsbD ((i + (n - k)) % n)) ∧
  rotlN (0x80000001 : U32) 7 = 0x000000C0 ∧
  rotlN (0x8000000000000001 : Word) 45 = 0x0000300000000000

/-! ### Transition functions -/

/-- R130: xorshift32. -/
def Obligations.Xorshift32Transition : Prop :=
  (∀ w : Words,
    let a := w.w0.setWidth 32
    let a₁ := a ^^^ (a <<< 13)
    let a₂ := a₁ ^^^ (a₁ >>> 17)
    let a₃ := a₂ ^^^ (a₂ <<< 5)
    transition .xorshift32 w = ({ w with w0 := a₃.setWidth 64 }, a₃.setWidth 64)) ∧
  transition .xorshift32 ⟨0, 0, 0, 0, 0, 0⟩ = (⟨0, 0, 0, 0, 0, 0⟩, 0) ∧
  transition .xorshift32 ⟨0xFFFFFFFF, 0, 0, 0, 0, 0⟩ = (⟨0x0003E01F, 0, 0, 0, 0, 0⟩, 0x0003E01F) ∧
  transition .xorshift32 ⟨0x80000000, 0, 0, 0, 0, 0⟩ = (⟨0x80084000, 0, 0, 0, 0, 0⟩, 0x80084000) ∧
  transition .xorshift32 ⟨1, 0, 0, 0, 0, 0⟩ = (⟨0x00042021, 0, 0, 0, 0, 0⟩, 0x00042021)

/-- R131: xorshift64. -/
def Obligations.Xorshift64Transition : Prop :=
  (∀ w : Words,
    let x := w.w0
    let x₁ := x ^^^ (x <<< 13)
    let x₂ := x₁ ^^^ (x₁ >>> 7)
    let x₃ := x₂ ^^^ (x₂ <<< 17)
    transition .xorshift64 w = ({ w with w0 := x₃ }, x₃)) ∧
  transition .xorshift64 ⟨0, 0, 0, 0, 0, 0⟩ = (⟨0, 0, 0, 0, 0, 0⟩, 0) ∧
  transition .xorshift64 ⟨0x8000000000000000, 0, 0, 0, 0, 0⟩ =
    (⟨0x8100000000000000, 0, 0, 0, 0, 0⟩, 0x8100000000000000) ∧
  transition .xorshift64 ⟨0xFFFFFFFFFFFFFFFF, 0, 0, 0, 0, 0⟩ =
    (⟨0x000000003F801FC0, 0, 0, 0, 0, 0⟩, 0x000000003F801FC0) ∧
  transition .xorshift64 ⟨1, 0, 0, 0, 0, 0⟩ = (⟨0x40822041, 0, 0, 0, 0, 0⟩, 0x40822041) ∧
  transition .xorshift64 ⟨777, 0, 0, 0, 0, 0⟩ =
    (⟨0x000000C3C2FFE14F, 0, 0, 0, 0, 0⟩, 0x000000C3C2FFE14F)

/-- R132: xorshift128. -/
def Obligations.Xorshift128Transition : Prop :=
  (∀ w : Words,
    let s := w.w0.setWidth 32
    let t := w.w3.setWidth 32
    let t₁ := t ^^^ (t <<< 11)
    let t₂ := t₁ ^^^ (t₁ >>> 8)
    let a := t₂ ^^^ s ^^^ (s >>> 19)
    transition .xorshift128 w =
      ({ w with
          w0 := a.setWidth 64
          w1 := s.setWidth 64
          w2 := (w.w1.setWidth 32).setWidth 64
          w3 := (w.w2.setWidth 32).setWidth 64 }, a.setWidth 64)) ∧
  transition .xorshift128 ⟨0, 0, 0, 0, 0, 0⟩ = (⟨0, 0, 0, 0, 0, 0⟩, 0) ∧
  transition .xorshift128 ⟨0, 0, 0, 1, 0, 0⟩ = (⟨0x809, 0, 0, 0, 0, 0⟩, 0x809) ∧
  (transition .xorshift128 ⟨0xFFFFFFFF, 0xFFFFFFFF, 0xFFFFFFFF, 0xFFFFFFFF, 0, 0⟩).2 =
    0xFFFFE7F8 ∧
  transition .xorshift128 ⟨1, 2, 3, 4, 0, 0⟩ = (⟨0x2025, 1, 2, 3, 0, 0⟩, 0x2025)

/-- R133: xorshift128+. -/
def Obligations.Xorshift128PlusTransition : Prop :=
  (∀ w : Words,
    let x := w.w0 ^^^ (w.w0 <<< 23)
    transition .xorshift128p w =
      ({ w with
          w0 := w.w1
          w1 := x ^^^ w.w1 ^^^ (x >>> 18) ^^^ (w.w1 >>> 5) }, w.w0 + w.w1)) ∧
  transition .xorshift128p ⟨0, 0, 0, 0, 0, 0⟩ = (⟨0, 0, 0, 0, 0, 0⟩, 0) ∧
  transition .xorshift128p ⟨0xFFFFFFFFFFFFFFFF, 1, 0, 0, 0, 0⟩ =
    (⟨1, 0x00000000007FFFE1, 0, 0, 0, 0⟩, 0) ∧
  transition .xorshift128p ⟨1, 2, 0, 0, 0, 0⟩ = (⟨2, 0x0000000000800023, 0, 0, 0, 0⟩, 3)

/-- R134: xoshiro128++. -/
def Obligations.Xoshiro128PlusPlusTransition : Prop :=
  (∀ w : Words,
    let s₀ := w.w0.setWidth 32
    let s₁ := w.w1.setWidth 32
    let s₂ := w.w2.setWidth 32
    let s₃ := w.w3.setWidth 32
    let sum := s₀ + s₃
    let result := ((sum <<< 7) ||| (sum >>> 25)) + s₀
    let u := s₃ ^^^ s₁
    transition .xoshiro128pp w =
      ({ w with
          w0 := (s₀ ^^^ u).setWidth 64
          w1 := (s₁ ^^^ (s₂ ^^^ s₀)).setWidth 64
          w2 := (s₂ ^^^ s₀ ^^^ (s₁ <<< 9)).setWidth 64
          w3 := ((u <<< 11) ||| (u >>> 21)).setWidth 64 }, result.setWidth 64)) ∧
  transition .xoshiro128pp ⟨0, 0, 0, 0, 0, 0⟩ = (⟨0, 0, 0, 0, 0, 0⟩, 0) ∧
  transition .xoshiro128pp ⟨0xFFFFFFFF, 0, 0, 1, 0, 0⟩ =
    (⟨0xFFFFFFFE, 0xFFFFFFFF, 0xFFFFFFFF, 0x800, 0, 0⟩, 0xFFFFFFFF) ∧
  transition .xoshiro128pp ⟨1, 0, 0, 0, 0, 0⟩ = (⟨1, 1, 1, 0, 0, 0⟩, 0x81) ∧
  transition .xoshiro128pp ⟨1, 2, 3, 4, 0, 0⟩ = (⟨7, 0, 0x402, 0x3000, 0, 0⟩, 0x281)

/-- R135: xoshiro256++. -/
def Obligations.Xoshiro256PlusPlusTransition : Prop :=
  (∀ w : Words,
    let sum := w.w0 + w.w3
    let result := ((sum <<< 23) ||| (sum >>> 41)) + w.w0
    let u := w.w3 ^^^ w.w1
    transition .xoshiro256pp w =
      ({ w with
          w0 := w.w0 ^^^ u
          w1 := w.w1 ^^^ (w.w2 ^^^ w.w0)
          w2 := w.w2 ^^^ w.w0 ^^^ (w.w1 <<< 17)
          w3 := (u <<< 45) ||| (u >>> 19) }, result)) ∧
  transition .xoshiro256pp ⟨0, 0, 0, 0, 0, 0⟩ = (⟨0, 0, 0, 0, 0, 0⟩, 0) ∧
  transition .xoshiro256pp ⟨0xFFFFFFFFFFFFFFFF, 0, 0, 1, 0, 0⟩ =
    (⟨0xFFFFFFFFFFFFFFFE, 0xFFFFFFFFFFFFFFFF, 0xFFFFFFFFFFFFFFFF, 0x0000200000000000, 0, 0⟩,
      0xFFFFFFFFFFFFFFFF) ∧
  (transition .xoshiro256pp ⟨1, 0, 0, 0, 0, 0⟩).2 = 0x0000000000800001 ∧
  transition .xoshiro256pp ⟨1, 2, 3, 4, 0, 0⟩ =
    (⟨7, 0, 0x40002, 0x0000C00000000000, 0, 0⟩, 0x0000000002800001)

/-- R136: splitmix32, for the parameter `SM32` whatever it is; the constraints the rule puts on it;
and the candidate set the rule names, with its example. -/
def Obligations.Splitmix32Transition : Prop :=
  (∀ w : Words,
    let p := Config.sm32
    let x := w.w0.setWidth 32 + p.inc
    let z₁ := (x ^^^ (x >>> p.sh1)) * p.mul1
    let z₂ := (z₁ ^^^ (z₁ >>> p.sh2)) * p.mul2
    let z₃ := z₂ ^^^ (z₂ >>> p.sh3)
    transition .splitmix32 w = ({ w with w0 := x.setWidth 64 }, z₃.setWidth 64)) ∧
  (∀ p : Sm32, p.inc.getLsbD 0 = true ∧ p.mul1.getLsbD 0 = true ∧ p.mul2.getLsbD 0 = true ∧
    1 ≤ p.sh1 ∧ p.sh1 ≤ 31 ∧ 1 ≤ p.sh2 ∧ p.sh2 ≤ 31 ∧ 1 ≤ p.sh3 ∧ p.sh3 ≤ 31) ∧
  ∃ p : Sm32, p.inc = 0x9E3779B9 ∧ p.sh1 = 16 ∧ p.mul1 = 0x85EBCA6B ∧ p.sh2 = 13 ∧
    p.mul2 = 0xC2B2AE35 ∧ p.sh3 = 16 ∧
    splitmix32 p ⟨0, 0, 0, 0, 0, 0⟩ = (⟨0x9E3779B9, 0, 0, 0, 0, 0⟩, 0x92CA2F0E)

/-- R137: splitmix64. -/
def Obligations.Splitmix64Transition : Prop :=
  (∀ w : Words,
    let x := w.w0 + 0x9E3779B97F4A7C15
    let z₁ := (x ^^^ (x >>> 30)) * 0xBF58476D1CE4E5B9
    let z₂ := (z₁ ^^^ (z₁ >>> 27)) * 0x94D049BB133111EB
    let z₃ := z₂ ^^^ (z₂ >>> 31)
    transition .splitmix64 w = ({ w with w0 := x }, z₃)) ∧
  transition .splitmix64 ⟨0xFFFFFFFFFFFFFFFF, 0, 0, 0, 0, 0⟩ =
    (⟨0x9E3779B97F4A7C14, 0, 0, 0, 0, 0⟩, 0xE4D971771B652C20) ∧
  (let a := transition .splitmix64 ⟨0, 0, 0, 0, 0, 0⟩
   let b := transition .splitmix64 a.1
   let c := transition .splitmix64 b.1
   a = (⟨0x9E3779B97F4A7C15, 0, 0, 0, 0, 0⟩, 0xE220A8397B1DCDAF) ∧
    b.2 = 0x6E789E6AA1B965F4 ∧ c.2 = 0x06C45D188009454F)

/-- R138: xorwow. -/
def Obligations.XorwowTransition : Prop :=
  (∀ w : Words,
    let t := w.w4.setWidth 32
    let s := w.w0.setWidth 32
    let t₁ := t ^^^ (t >>> 2)
    let t₂ := t₁ ^^^ (t₁ <<< 1)
    let t₃ := t₂ ^^^ s ^^^ (s <<< 4)
    let counter := w.w5.setWidth 32 + 362437
    transition .xorwow w =
      (⟨t₃.setWidth 64, s.setWidth 64, (w.w1.setWidth 32).setWidth 64,
          (w.w2.setWidth 32).setWidth 64, (w.w3.setWidth 32).setWidth 64, counter.setWidth 64⟩,
        (t₃ + counter).setWidth 64)) ∧
  transition .xorwow ⟨0, 0, 0, 1, 0, 0xFFFFFFFF⟩ = (⟨0, 0, 0, 0, 1, 0x000587C4⟩, 0x000587C4) ∧
  (∀ k : Word, let r := transition .xorwow ⟨0, 0, 0, 0, 0, k⟩
    r.1 = ⟨0, 0, 0, 0, 0, r.2⟩) ∧
  transition .xorwow ⟨1, 2, 3, 4, 5, 0⟩ = (⟨0x1D, 1, 2, 3, 4, 0x000587C5⟩, 0x000587E2)

/-- R144: a state that is not the zero fixed point is never advanced into it. -/
def Obligations.AdvanceNeverEntersTheZeroState : Prop :=
  ∀ (a : Alg) (w : Words), isZeroState a w = false → isZeroState a (transition a w).1 = false

/-! ### Generator commands -/

/-- The non-zero-state precondition of R143 for each algorithm. -/
def Sys2Proof.Claims.SeedIsAccepted (a : Alg) (p : List Word) : Prop :=
  match a with
  | .xorshift32 | .xorshift64 => p.getD 0 0 ≠ 0
  | .xorshift128 | .xoshiro128pp | .xoshiro256pp | .xorwow =>
    ¬ (p.getD 0 0 = 0 ∧ p.getD 1 0 = 0 ∧ p.getD 2 0 = 0 ∧ p.getD 3 0 = 0)
  | .xorshift128p => ¬ (p.getD 0 0 = 0 ∧ p.getD 1 0 = 0)
  | .splitmix32 | .splitmix64 => True

/-- The seed precondition of R140 as a whole: word count, word width, non-zero state. -/
def Sys2Proof.Claims.SeedIsLegal (a : Alg) (p : List Word) : Prop :=
  p.length = arity a ∧ (width a = 32 → ∀ x ∈ p, x.toNat < 2 ^ 32) ∧
    Sys2Proof.Claims.SeedIsAccepted a p

/-- R22: the arity and the width of each algorithm.  R140, R143, R77: SEED of an existing context with a legal seed writes the context: the words
from the payload in the order of the word map, zero above the arity, and an empty feeder. -/
def Obligations.SeedWritesTheContext : Prop :=
  ([Alg.xorshift32, .xorshift64, .xorshift128, .xorshift128p, .xoshiro128pp, .xoshiro256pp,
      .splitmix32, .splitmix64, .xorwow].map fun a => (arity a, width a)) =
    [(1, 32), (1, 64), (4, 32), (2, 64), (4, 32), (4, 64), (1, 32), (1, 64), (6, 32)] ∧
  ∀ (s : State) (c : Nibble) (a : Alg) (p : List Word),
    c.toNat < s.ctxs.length → Sys2Proof.Claims.SeedIsLegal a p →
    ∃ w : Words, (∀ i, i < 6 → w.get i = if i < arity a then p.getD i 0 else 0) ∧
      exec (.seed c a p) s = .next { s with
        phase := .idle
        ctxs := s.ctxs.set c.toNat { valid := true, alg := a, w := w, half := false, cache := 0 }
        responses := s.responses ++ [⟨.ok, []⟩] }

/-- R140, R143: SEED of an existing context with an illegal seed answers PRECONDITION and writes
nothing, so the previous generator stays. -/
def Obligations.SeedRefusesAnIllegalSeed : Prop :=
  ∀ (s : State) (c : Nibble) (a : Alg) (p : List Word),
    c.toNat < s.ctxs.length → ¬ Sys2Proof.Claims.SeedIsLegal a p →
    exec (.seed c a p) s = .next { s with
      phase := .idle, responses := s.responses ++ [⟨.precondition, []⟩] }

/-- R139, R141: NEXT on a seeded context runs the transition function of its algorithm once, writes
the new words and answers the sample; the feeder is untouched. -/
def Obligations.NextAnswersTheSample : Prop :=
  ∀ (s : State) (c : Nibble) (x : Context), s.ctx? c = some x → x.valid = true →
    exec (.next c) s = .next { s with
      phase := .idle
      ctxs := s.ctxs.set c.toNat { x with w := (transition x.alg x.w).1 }
      responses := s.responses ++ [⟨.ok, [(transition x.alg x.w).2]⟩] }

/-- R142, R79: RDST on any existing context answers CTXCTL, the six words and the cache, and changes
nothing. -/
def Obligations.RdstAnswersTheContext : Prop :=
  ∀ (s : State) (c : Nibble) (x : Context), s.ctx? c = some x →
    exec (.rdst c) s = .next { s with
      phase := .idle
      responses := s.responses ++ [⟨.ok,
        [ctxctl x, x.w.w0, x.w.w1, x.w.w2, x.w.w3, x.w.w4, x.w.w5, x.cache.setWidth 64]⟩] }

/-- R26, R76: the bits of CTXCTL, and the code of each algorithm in them. -/
def Obligations.CtxctlBitLayout : Prop :=
  [Alg.xorshift32, .xorshift64, .xorshift128, .xorshift128p, .xoshiro128pp, .xoshiro256pp,
    .splitmix32, .splitmix64, .xorwow].map Alg.code = [0, 1, 2, 3, 4, 5, 6, 7, 8] ∧
  ∀ x : Context, (ctxctl x).extractLsb' 0 4 = x.alg.code ∧ (ctxctl x).getLsbD 4 = x.valid ∧
    (ctxctl x).getLsbD 5 = x.half ∧ (ctxctl x).extractLsb' 6 58 = 0 ∧
    (ctxctl x).toNat = x.alg.code.toNat + 16 * x.valid.toNat + 32 * x.half.toNat

/-! ### Conversions -/

/-- R202: the value of the multiplicative conversion is `(x >> 11) * 2^-53` exactly, with the
rule's corner cases and example. -/
def Obligations.MultiplicativeConversionIsExact : Prop :=
  (∀ x : Word, binary64Value (convMul x) = some (((x.toNat / 2 ^ 11 : Nat) : ℚ) / 2 ^ 53)) ∧
  (∀ x : Word, x.toNat < 0x800 → convMul x = 0) ∧
  (∀ x : Word, 0x800 ≤ x.toNat → x.toNat ≤ 0xFFF → convMul x = 0x3CA0000000000000) ∧
  (∀ x : Word, 0xFFFFFFFFFFFFF800 ≤ x.toNat → convMul x = 0x3FEFFFFFFFFFFFFF) ∧
  convMul 0x8000000000000000 = 0x3FE0000000000000

/-- R203: the value of the bit-construction conversion is the value of the pattern
`(0x3FF << 52) | (x >> 12)` minus 1 exactly, that pattern's value is `1 + (x >> 12) / 2^52`, and the
rule's corner cases and example. -/
def Obligations.BitConstructionConversionIsExact : Prop :=
  (∀ x : Word, ∃ y : ℚ, binary64Value ((0x3FF <<< 52) ||| (x >>> 12)) = some y ∧
    y = 1 + ((x.toNat / 2 ^ 12 : Nat) : ℚ) / 2 ^ 52 ∧ binary64Value (convBit x) = some (y - 1)) ∧
  (∀ x : Word, x.toNat < 0x1000 → convBit x = 0) ∧
  (∀ x : Word, 0x1000 ≤ x.toNat → x.toNat ≤ 0x1FFF → convBit x = 0x3CB0000000000000) ∧
  (∀ x : Word, 0xFFFFFFFFFFFFF000 ≤ x.toNat → convBit x = 0x3FEFFFFFFFFFFFFE) ∧
  convBit 0x8000000000000000 = 0x3FE0000000000000

/-- R209: both conversions give a value in `[0, 1)` for every operand.  The spec marks
R209 as derived from R202 and R203. -/
def Obligations.ConversionsLieInTheUnitInterval : Prop :=
  ∀ x : Word,
    (∃ q : ℚ, binary64Value (convMul x) = some q ∧ 0 ≤ q ∧ q < 1) ∧
    (∃ q : ℚ, binary64Value (convBit x) = some q ∧ 0 ≤ q ∧ q < 1)

/-- R210: the two conversions agree exactly when bit 11 of the operand is 0.  The spec marks this as
derived from R202 and R203. -/
def Obligations.ConversionsAgreeExactlyWhenBit11IsClear : Prop :=
  (∀ x : Word, convMul x = convBit x ↔ x.getLsbD 11 = false) ∧
  convMul 0x0123456789ABCDEF = 0x3F723456789ABC80 ∧
  convBit 0x0123456789ABCDEF = 0x3F723456789ABC00

/-- R204, R205: CVTM and CVTB answer the conversion of their payload word, for every word, and
change nothing. -/
def Obligations.ConversionCommandsAnswer : Prop :=
  ∀ (s : State) (x : Word),
    exec (.cvtm x) s = .next { s with
      phase := .idle, responses := s.responses ++ [⟨.ok, [convMul x]⟩] } ∧
    exec (.cvtb x) s = .next { s with
      phase := .idle, responses := s.responses ++ [⟨.ok, [convBit x]⟩] }

/-- R206: a 64-bit algorithm supplies one sample; a 32-bit one two, the first drawn in the high 32
bits; nothing but the words changes. -/
def Obligations.Draw64ConcatenatesTwoNarrowSamples : Prop :=
  (∀ x : Context, width x.alg = 64 →
    x.draw64 = ({ x with w := (transition x.alg x.w).1 }, (transition x.alg x.w).2)) ∧
  (∀ x : Context, width x.alg = 32 →
    let first := transition x.alg x.w
    let second := transition x.alg first.1
    x.draw64.1 = { x with w := second.1 } ∧
    first.2.toNat < 2 ^ 32 ∧ second.2.toNat < 2 ^ 32 ∧
    x.draw64.2.toNat = first.2.toNat * 2 ^ 32 + second.2.toNat) ∧
  (Context.draw64 ⟨true, .xorshift32, ⟨1, 0, 0, 0, 0, 0⟩, false, 0⟩).2 = 0x0004202104080601

/-- R207, R208: NEXTD_M and NEXTD_B on a seeded context draw 64 bits from it and answer their
conversion; the feeder is untouched (R206). -/
def Obligations.DrawAndConvertCommandsAnswer : Prop :=
  ∀ (s : State) (c : Nibble) (x : Context), s.ctx? c = some x → x.valid = true →
    exec (.nextdM c) s = .next { s with
      phase := .idle
      ctxs := s.ctxs.set c.toNat x.draw64.1
      responses := s.responses ++ [⟨.ok, [convMul x.draw64.2]⟩] } ∧
    exec (.nextdB c) s = .next { s with
      phase := .idle
      ctxs := s.ctxs.set c.toNat x.draw64.1
      responses := s.responses ++ [⟨.ok, [convBit x.draw64.2]⟩] } ∧
    x.draw64.1.half = x.half ∧ x.draw64.1.cache = x.cache

/-! ### Feeder and bounded draws -/

/-- R230: a feed from the empty state draws a sample, caches its low half and gives its high half;
from the half-cached state it gives the cached half and empties the feeder; so two feeds from the
empty state give the high and then the low half of one sample. -/
def Obligations.FeedSplitsASampleHighHalfFirst : Prop :=
  (∀ x : Context, x.half = false →
    let r := transition x.alg x.w
    x.feed = ({ x with w := r.1, half := true, cache := lo32 r.2 }, hi32 r.2) ∧
    x.feed.1.feed = ({ x with w := r.1, half := false, cache := 0 }, lo32 r.2)) ∧
  (∀ x : Context, x.half = true → x.feed = ({ x with half := false, cache := 0 }, x.cache))

/-- R231: FEED32 on a seeded context with a 64-bit algorithm makes one feed and answers it. -/
def Obligations.Feed32AnswersOneFeed : Prop :=
  ∀ (s : State) (c : Nibble) (x : Context),
    s.ctx? c = some x → x.valid = true → width x.alg = 64 →
    exec (.feed32 c) s = .next { s with
      phase := .idle
      ctxs := s.ctxs.set c.toNat x.feed.1
      responses := s.responses ++ [⟨.ok, [x.feed.2.setWidth 64]⟩] }

/-- R232, R304: the division-free threshold is `(2^32 - range) mod range`, below `range` and at most
`2^32 - range`; the rule's examples. -/
def Obligations.ThresholdIsTheResidueOfTheNegation : Prop :=
  (∀ range : U32, range ≠ 0 →
    (thresholdDf range).toNat = (2 ^ 32 - range.toNat) % range.toNat ∧
    thresholdDf range < range ∧ (thresholdDf range).toNat ≤ 2 ^ 32 - range.toNat) ∧
  thresholdDf 1 = 0 ∧ thresholdDf 3 = 1 ∧ thresholdDf 7 = 4 ∧ thresholdDf 1000 = 296 ∧
  thresholdDf 0x80000000 = 0 ∧ thresholdDf 0x80000001 = 0x7FFFFFFF ∧ thresholdDf 0xFFFFFFFF = 1

/-- R234: the two thresholds are equal for every range from 1 to `2^32 - 1`, so the two bounded
draws give the same outcome on the same state and range, but for the variant their PHASE names.  The spec marks R234 as
derived from R232 and R233. -/
def Obligations.TheTwoThresholdsAreEqual : Prop :=
  (∀ range : U32, range ≠ 0 → thresholdDa range = thresholdDf range) ∧
  (∀ (s : State) (c : Nibble) (range : U32),
    forgetOutcome (exec (.bdrawDf c range) s) = forgetOutcome (exec (.bdrawDa c range) s))

/-- R239: a bounded draw with range 0, on a context that could be fed, answers INVALID_RANGE before
any feed: no state changes, and the feeder keeps its cached half. -/
def Obligations.RangeZeroIsRefusedBeforeAnyFeed : Prop :=
  ∀ (s : State) (c : Nibble) (x : Context),
    s.ctx? c = some x → x.valid = true → width x.alg = 64 →
    exec (.bdrawDf c 0) s = .next { s with
      phase := .idle, responses := s.responses ++ [⟨.invalidRange, []⟩] } ∧
    exec (.bdrawDa c 0) s = .next { s with
      phase := .idle, responses := s.responses ++ [⟨.invalidRange, []⟩] }

/-- R240: range 1 gives 0 after exactly one feed, whatever the feed is; its threshold is 0.  The spec
marks R240 as derived from R232 and R235. -/
def Obligations.RangeOneGivesZeroAfterOneFeed : Prop :=
  thresholdDf 1 = 0 ∧ thresholdDa 1 = 0 ∧
  ∀ (s : State) (c : Nibble) (x : Context),
    s.ctx? c = some x → x.valid = true → width x.alg = 64 →
    exec (.bdrawDf c 1) s = .next { s with
      phase := .idle
      ctxs := s.ctxs.set c.toNat x.feed.1
      responses := s.responses ++ [⟨.ok, [0]⟩] } ∧
    exec (.bdrawDa c 1) s = .next { s with
      phase := .idle
      ctxs := s.ctxs.set c.toNat x.feed.1
      responses := s.responses ++ [⟨.ok, [0]⟩] }

/-- R241: every result of a bounded draw, from its first step or from its loop, is below the
range.  The spec marks R241 as derived from R235. -/
def Obligations.BoundedDrawIsBelowItsRange : Prop :=
  (∀ x range : U32, range ≠ 0 → hi32 (mulw x range) < range) ∧
  (∀ (i : Instr) (c : Nibble) (range : U32) (s t : State) (r : Word),
    i = .bdrawDf c range ∨ i = .bdrawDa c range → exec i s = .next t →
    t.responses = s.responses ++ [⟨.ok, [r]⟩] → r.toNat < range.toNat) ∧
  (∀ (s t : State) (c : Nibble) (range th : U32) (m r : Word) (v : Variant),
    s.resetIn = false → s.phase = .loop c range th m v → range ≠ 0 → step s = .next t →
    t.responses = s.responses ++ [⟨.ok, [r]⟩] → r.toNat < range.toNat)

/-- R235, R236, R237, R238: a bounded draw on a context that can be fed, whose draws 0 to `n - 1`
are rejected and whose draw `n` is accepted, answers the high half of that draw's product after `n`
loop steps; the context is the one `n + 1` feeds leave, and nothing else has changed. -/
def Obligations.BoundedDrawAnswersItsFirstAcceptedDraw : Prop :=
  ∀ (s : State) (c : Nibble) (range : U32) (x : Context) (n : Nat),
    s.resetIn = false → s.ctx? c = some x → x.valid = true → width x.alg = 64 → range ≠ 0 →
    (∀ k, k < n → lo32 (x.productAt range k) < thresholdDf range) →
    thresholdDf range ≤ lo32 (x.productAt range n) →
    ∀ i : Instr, i = .bdrawDf c range ∨ i = .bdrawDa c range →
      ∃ s₁, exec i s = .next s₁ ∧ stepsFrom n s₁ = .next { s with
        phase := .idle
        ctxs := s.ctxs.set c.toNat (x.feedAt n).1
        responses := s.responses ++ [⟨.ok, [zext64 (hi32 (x.productAt range n))]⟩] }

/-- R236, R304: while every draw is rejected the bounded draw stays in its loop, one feed a step,
and emits nothing; there is no limit on the number of steps. -/
def Obligations.BoundedDrawLoopsWhileItsDrawsAreRejected : Prop :=
  ∀ (s : State) (c : Nibble) (range : U32) (x : Context) (n : Nat) (v : Variant),
    s.resetIn = false → s.ctx? c = some x → x.valid = true → width x.alg = 64 → range ≠ 0 →
    (∀ k, k ≤ n → lo32 (x.productAt range k) < thresholdDf range) →
    ∀ i : Instr, (i = .bdrawDf c range ∧ v = .df) ∨ (i = .bdrawDa c range ∧ v = .da) →
      ∃ s₁, exec i s = .next s₁ ∧ stepsFrom n s₁ = .next { s with
        phase := .loop c range (thresholdDf range) (x.productAt range n) v
        ctxs := s.ctxs.set c.toNat (x.feedAt n).1 }

/-- R243: from every state and for every range the two bounded draws run alike: after any number of
steps the outcomes are equal but for the variant that a PHASE inside the loop names.  The spec marks R243
as derived from R234. -/
def Obligations.TheTwoVariantsRunAlike : Prop :=
  ∀ (s sd sa : State) (c : Nibble) (range : U32),
    exec (.bdrawDf c range) s = .next sd → exec (.bdrawDa c range) s = .next sa →
    ∀ n, forgetOutcome (stepsFrom n sd) = forgetOutcome (stepsFrom n sa)

/-! ### Runs -/

/-- R310: a run that is over stays as it is, so it has one observation, however many steps are made;
one whose last command is incomplete, one in which the block stays inside a rejection loop for ever,
and one launched inside a command whose words have not all arrived, are never over.  That the words
of a run are queued at its launch, and that the last of these is never over, is the model's (log
entry 19). -/
def Obligations.RunIsOverForGoodOrNever : Prop :=
  (∀ (r : Run) (n : Nat) (t : State), r.after n = .next t → r.isOver t = true →
    (∀ k, r.after (n + k) = .next t) ∧
    ∀ m o, r.observation m = some o → o = r.observe t) ∧
  (∀ (r : Run) (ws : List Word), r.WellFormed → ws ≠ [] → decode ws = .incomplete →
    ∀ n, (Run.mk r.launch (r.commands ++ [ws])).observation n = none) ∧
  (∀ (r : Run) (N : Nat),
    (∀ n, N ≤ n → ∃ t c range th m v, r.after n = .next t ∧ t.phase = .loop c range th m v) →
    ∀ n, r.observation n = none) ∧
  (∀ r : Run, r.launch.owed = none → ∀ n, r.observation n = none)

/-- R29, R303, R305, R310: a run of complete commands, launched between commands or during one, is
over after some number of steps, or hangs in a rejection loop, and in no other way goes on; a run
that is over has emitted the responses its launch state owed and one for each command; the commands
after it begin when it is first over, in the state it leaves, and observe as if they had been sent
only then; and words the host sends while the block is not waiting for one change nothing but the
port.  That the words are queued at the launch, and that the responses owed at the launch count in
the observation, is the model's (log entry 19).  The second clause also takes a launch with a reset
pending and the third a step that resets: that waiting words and emitted responses survive a reset
is the model's choice (log entry 7, unsafe) and no word of R310, which "says nothing of a run during
which reset is applied". -/
def Obligations.RunOfCompleteCommandsEndsOrHangs : Prop :=
  (∀ (r : Run) (k : Nat), r.WellFormed → r.launch.Inv → r.launch.owed = some k →
    (∃ n t, r.after n = .next t ∧ r.isOver t = true ∧ t.Inv ∧
      (r.observe t).responses.length = k + r.commands.length) ∨
    ∃ N, ∀ n, N ≤ n →
      ∃ t c range th m v, r.after n = .next t ∧ t.phase = .loop c range th m v) ∧
  (∀ (r : Run) (more : List (List Word)) (n : Nat) (t : State),
    r.after n = .next t → r.isOver t = true → (∀ m, m < n → r.observation m = none) →
    (∀ k, (Run.mk r.launch (r.commands ++ more)).after (n + k) = (Run.mk t more).after k) ∧
    ∀ k o, (Run.mk t more).observation k = some o →
      (Run.mk r.launch (r.commands ++ more)).observation (n + k) =
        some { o with responses := (r.observe t).responses ++ o.responses }) ∧
  (∀ (s t : State) (ws : List Word), step s = .next t →
    s.resetIn = true ∨ s.phase ≠ .idle ∨ decode s.inbuf ≠ .incomplete ∨ s.port ≠ [] →
    step (s.hostSend ws) = .next (t.hostSend ws))
end

