-- ==== Sys2Proof/Laws/Arith.lean ====
section
/-!
SUPPORT. Laws/Arith.lean: how the 32-bit halves and the zero-extension undo each other, and that a
word is its own exclusive or with a shift of itself only when it is zero.
-/

namespace Sys2Proof

@[simp] theorem lo32_zext64 (a : U32) : lo32 (zext64 a) = a := by
  apply BitVec.eq_of_toNat_eq
  have := a.isLt
  simp [lo32, zext64]; omega

@[simp] theorem hi32_zext64 (a : U32) : hi32 (zext64 a) = 0 := by
  apply BitVec.eq_of_toNat_eq
  have := a.isLt
  simp [hi32, zext64]; omega

theorem zext64_lt (a : U32) : (zext64 a).toNat < 2 ^ 32 := by
  have := a.isLt
  simp [zext64]; omega

theorem zext64_eq_zero_iff (a : U32) : zext64 a = 0 ↔ a = 0 := by
  constructor
  · intro h
    rw [← lo32_zext64 a, h]; rfl
  · rintro rfl; rfl

/-- A word whose high half is zero is the zero-extension of its low half. -/
theorem zext64_lo32_of_hi32 {v : Word} (h : hi32 v = 0) : zext64 (lo32 v) = v := by
  apply BitVec.eq_of_toNat_eq
  have h1 := congrArg BitVec.toNat h
  have := v.isLt
  simp [hi32, Nat.shiftRight_eq_div_pow] at h1
  simp [lo32, zext64]; omega

/-- `x ↦ x xor (x << k)` sends only 0 to 0, for a shift of at least 1. -/
theorem xor_shlN_eq_zero_iff {n k : Nat} (hk : 1 ≤ k) (x : BitVec n) :
    x ^^^ shlN x k = 0 ↔ x = 0 := by
  constructor
  · intro h
    have hx : x = shlN x k := BitVec.xor_eq_zero_iff.mp h
    apply BitVec.eq_of_getLsbD_eq
    intro i
    induction i using Nat.strongRecOn with
    | _ i ih =>
      intro hi
      rw [hx]
      simp only [shlN, BitVec.getLsbD_shiftLeft]
      by_cases hik : i < k
      · simp [hik]
      · have := ih (i - k) (by omega) (by omega)
        simp at this
        simp [this]
  · rintro rfl; simp [shlN]

/-- `x ↦ x xor (x >> k)` sends only 0 to 0, for a shift of at least 1. -/
theorem xor_shrN_eq_zero_iff {n k : Nat} (hk : 1 ≤ k) (x : BitVec n) :
    x ^^^ shrN x k = 0 ↔ x = 0 := by
  constructor
  · intro h
    have hx : x = shrN x k := BitVec.xor_eq_zero_iff.mp h
    have key : ∀ d i, n - i = d → x.getLsbD i = false := by
      intro d
      induction d using Nat.strongRecOn with
      | _ d ih =>
        intro i hd
        by_cases hi : n ≤ i
        · exact BitVec.getLsbD_of_ge x i hi
        · rw [hx]
          simp only [shrN, BitVec.getLsbD_ushiftRight]
          exact ih (n - (k + i)) (by omega) (k + i) rfl
    apply BitVec.eq_of_getLsbD_eq
    intro i _
    simp [key _ i rfl]
  · rintro rfl; simp [shrN]

/-- A rotation sends only 0 to 0. -/
theorem rotlN_eq_zero_iff {n k : Nat} (hk : k ≤ n) (x : BitVec n) : rotlN x k = 0 ↔ x = 0 := by
  constructor
  · intro h
    apply BitVec.eq_of_getLsbD_eq
    intro i hi
    by_cases hlow : i < n - k
    · have := congrArg (fun v : BitVec n => v.getLsbD (i + k)) h
      have h1 : (i + k) < n := by omega
      simp [rotlN, shlN, shrN, h1] at this
      rw [BitVec.getLsbD_eq_getElem hi, this.1]; simp
    · have := congrArg (fun v : BitVec n => v.getLsbD (i - (n - k))) h
      have h1 : n - k + (i - (n - k)) = i := by omega
      simp [rotlN, shlN, shrN, h1] at this
      rw [this.2]; simp
  · rintro rfl; simp [rotlN, shlN, shrN]

end Sys2Proof
end

