-- ==== Sys2Proof/Laws/Decode.lean ====
section
/-!
SUPPORT. Laws/Decode.lean: the fields of a built header read back, and the algorithm codes are
undone by the selector.
-/

namespace Sys2Proof

variable (o : BitVec 8) (c a n : Nibble) (im : U32)

theorem mkHeader_toNat : (mkHeader o c a n im).toNat =
    o.toNat * 2 ^ 56 + c.toNat * 2 ^ 52 + a.toNat * 2 ^ 48 + n.toNat * 2 ^ 44 + im.toNat := by
  have := o.isLt; have := c.isLt; have := a.isLt; have := n.isLt; have := im.isLt
  simp only [mkHeader, BitVec.toNat_append, Nat.shiftLeft_eq]
  repeat rw [Nat.mul_comm _ (2 ^ _), ← Nat.two_pow_add_eq_or_of_lt (by omega)]
  simp; omega

@[simp] theorem opcOf_mkHeader : opcOf (mkHeader o c a n im) = o := by
  have := o.isLt; have := c.isLt; have := a.isLt; have := n.isLt; have := im.isLt
  apply BitVec.eq_of_toNat_eq
  simp [opcOf, mkHeader_toNat, Nat.shiftRight_eq_div_pow]; omega

@[simp] theorem ctxOf_mkHeader : ctxOf (mkHeader o c a n im) = c := by
  have := o.isLt; have := c.isLt; have := a.isLt; have := n.isLt; have := im.isLt
  apply BitVec.eq_of_toNat_eq
  simp [ctxOf, mkHeader_toNat, Nat.shiftRight_eq_div_pow]; omega

@[simp] theorem algOf_mkHeader : algOf (mkHeader o c a n im) = a := by
  have := o.isLt; have := c.isLt; have := a.isLt; have := n.isLt; have := im.isLt
  apply BitVec.eq_of_toNat_eq
  simp [algOf, mkHeader_toNat, Nat.shiftRight_eq_div_pow]; omega

@[simp] theorem nwOf_mkHeader : nwOf (mkHeader o c a n im) = n := by
  have := o.isLt; have := c.isLt; have := a.isLt; have := n.isLt; have := im.isLt
  apply BitVec.eq_of_toNat_eq
  simp [nwOf, mkHeader_toNat, Nat.shiftRight_eq_div_pow]; omega

@[simp] theorem rsvOf_mkHeader : rsvOf (mkHeader o c a n im) = 0 := by
  have := o.isLt; have := c.isLt; have := a.isLt; have := n.isLt; have := im.isLt
  apply BitVec.eq_of_toNat_eq
  simp [rsvOf, mkHeader_toNat, Nat.shiftRight_eq_div_pow]; omega

@[simp] theorem immOf_mkHeader : immOf (mkHeader o c a n im) = im := by
  have := o.isLt; have := c.isLt; have := a.isLt; have := n.isLt; have := im.isLt
  apply BitVec.eq_of_toNat_eq
  simp [immOf, mkHeader_toNat]; omega

@[simp] theorem Alg.ofCode_code (a : Alg) : Alg.ofCode a.code = some a := by
  cases a <;> rfl

theorem Alg.code_of_ofCode {n : Nibble} {a : Alg} (h : Alg.ofCode n = some a) : a.code = n := by
  revert h; revert a n; decide

theorem Alg.ofCode_isSome_iff (n : Nibble) : (Alg.ofCode n).isSome = true ↔ n ≤ 8 := by
  revert n; decide

/-- A word is its six fields, where `RSV` is zero (R72). -/
theorem mkHeader_fields {h : Word} (hr : rsvOf h = 0) :
    mkHeader (opcOf h) (ctxOf h) (algOf h) (nwOf h) (immOf h) = h := by
  apply BitVec.eq_of_toNat_eq
  have := h.isLt
  have hr' := congrArg BitVec.toNat hr
  simp [rsvOf, Nat.shiftRight_eq_div_pow] at hr'
  simp [mkHeader_toNat, opcOf, ctxOf, algOf, nwOf, immOf, Nat.shiftRight_eq_div_pow]
  omega

/-- Two words with equal fields are equal (R72): the fields cover all 64 bits. -/
theorem word_eq_of_fields {h k : Word} (h1 : opcOf h = opcOf k) (h2 : ctxOf h = ctxOf k)
    (h3 : algOf h = algOf k) (h4 : nwOf h = nwOf k) (h5 : rsvOf h = rsvOf k)
    (h6 : immOf h = immOf k) : h = k := by
  apply BitVec.eq_of_toNat_eq
  have := h.isLt; have := k.isLt
  have h1 := congrArg BitVec.toNat h1; have h2 := congrArg BitVec.toNat h2
  have h3 := congrArg BitVec.toNat h3; have h4 := congrArg BitVec.toNat h4
  have h5 := congrArg BitVec.toNat h5; have h6 := congrArg BitVec.toNat h6
  simp [opcOf, ctxOf, algOf, nwOf, rsvOf, immOf, Nat.shiftRight_eq_div_pow] at h1 h2 h3 h4 h5 h6
  omega

/-- The opcodes check 1 lets through (R74). -/
theorem opcode_cases {o : BitVec 8} (h : ¬ (o = 0x00 ∨ o > 0x0A)) :
    o = 0x01 ∨ o = 0x02 ∨ o = 0x03 ∨ o = 0x04 ∨ o = 0x05 ∨ o = 0x06 ∨ o = 0x07 ∨ o = 0x08 ∨
      o = 0x09 ∨ o = 0x0A := by
  revert o; decide

/-- A header passes checks 1 to 7 exactly when each of them passes (R272). -/
theorem rejectHeader_eq_none_iff {h : Word} : rejectHeader h = none ↔
    ¬ (opcOf h = 0x00 ∨ opcOf h > 0x0A) ∧ rsvOf h = 0 ∧ (opcOf h ≠ 0x01 → algOf h = 0) ∧
    (opcOf h ≠ 0x04 → opcOf h ≠ 0x05 → immOf h = 0) ∧
    (opcOf h ≠ 0x01 → nwOf h = rowPayloadCount (opcOf h)) ∧
    (opcOf h = 0x01 → algOf h ≤ 8) ∧ (opcOf h = 0x06 ∨ opcOf h = 0x07 → ctxOf h = 0) := by
  unfold rejectHeader
  simp only
  split; · simp_all
  split; · simp_all
  split; · simp_all
  split; · simp_all
  split; · simp_all
  split; · rename_i h6; simp [h6]; intros; simpa using h6.2
  split; · simp_all
  simp_all

/-- A header that passes checks 1 to 7 is a command. -/
theorem readRow_of_accepted {h : Word} (p : List Word) (hn : rejectHeader h = none) :
    ∃ i, readRow h p = .ok i := by
  obtain ⟨c1, _, _, _, _, c6, _⟩ := rejectHeader_eq_none_iff.mp hn
  unfold readRow
  rcases opcode_cases c1 with ho | ho | ho | ho | ho | ho | ho | ho | ho | ho <;> rw [ho] at c6 ⊢
  · obtain ⟨a, ha⟩ := Option.isSome_iff_exists.mp ((Alg.ofCode_isSome_iff _).mpr (c6 rfl))
    exact ⟨_, by simp [ha]; rfl⟩
  all_goals exact ⟨_, rfl⟩

/-- What the decoder answers to a word sequence: it waits, or it takes the header and its `NW`
payload words (R71). -/
theorem decode_cases (ws : List Word) :
    decode ws = .incomplete ∨
    ∃ h ps, ws = h :: ps ∧ (nwOf h).toNat ≤ ps.length ∧
      ((∃ i, rejectHeader h = none ∧ readRow h (ps.take (nwOf h).toNat) = .ok i ∧
          decode ws = .command i (ps.drop (nwOf h).toNat)) ∨
       (∃ why, rejectHeader h = some why ∧ decode ws = .illegal why (ps.drop (nwOf h).toNat))) := by
  cases ws with
  | nil => exact .inl rfl
  | cons h ps =>
    by_cases hl : ps.length < (nwOf h).toNat
    · exact .inl (by simp [decode, hl])
    · refine .inr ⟨h, ps, rfl, by omega, ?_⟩
      cases hr : rejectHeader h with
      | some why => exact .inr ⟨why, rfl, by simp [decode, decodeHeader, hl, hr]⟩
      | none =>
        obtain ⟨i, hi⟩ := readRow_of_accepted (ps.take (nwOf h).toNat) hr
        exact .inl ⟨i, rfl, hi, by simp [decode, decodeHeader, hl, hr, hi]⟩

/-- The header of an instruction announces its payload (R70). -/
theorem nwOf_encodeHeader (i : Instr) (h : i.WellFormed) :
    (nwOf (encodeHeader i)).toNat = i.payload.length := by
  cases i with
  | seed c a p =>
    have : p.length ≤ 15 := h
    simp [encodeHeader, Instr.payload]; omega
  | _ => simp [encodeHeader, Instr.payload]

end Sys2Proof
end

