-- ==== Sys2Proof/Laws/State.lean ====
section
/-!
SUPPORT. Laws/State.lean: what each update of the state does to each field, so that no proof unfolds
a record update.
-/

namespace Sys2Proof.Machine

@[simp] theorem State.setCtx_ctxs (s : State) (c : Nibble) (x : Context) :
    (s.setCtx c x).ctxs = s.ctxs.set c.toNat x := rfl
@[simp] theorem State.setCtx_phase (s : State) (c : Nibble) (x : Context) :
    (s.setCtx c x).phase = s.phase := rfl
@[simp] theorem State.setCtx_inbuf (s : State) (c : Nibble) (x : Context) :
    (s.setCtx c x).inbuf = s.inbuf := rfl
@[simp] theorem State.setCtx_port (s : State) (c : Nibble) (x : Context) :
    (s.setCtx c x).port = s.port := rfl
@[simp] theorem State.setCtx_resetIn (s : State) (c : Nibble) (x : Context) :
    (s.setCtx c x).resetIn = s.resetIn := rfl
@[simp] theorem State.setCtx_responses (s : State) (c : Nibble) (x : Context) :
    (s.setCtx c x).responses = s.responses := rfl

@[simp] theorem State.setPhase_ctxs (s : State) (p : Phase) :
    (s.setPhase p).ctxs = s.ctxs := rfl
@[simp] theorem State.setPhase_phase (s : State) (p : Phase) :
    (s.setPhase p).phase = p := rfl
@[simp] theorem State.setPhase_inbuf (s : State) (p : Phase) :
    (s.setPhase p).inbuf = s.inbuf := rfl
@[simp] theorem State.setPhase_port (s : State) (p : Phase) :
    (s.setPhase p).port = s.port := rfl
@[simp] theorem State.setPhase_resetIn (s : State) (p : Phase) :
    (s.setPhase p).resetIn = s.resetIn := rfl
@[simp] theorem State.setPhase_responses (s : State) (p : Phase) :
    (s.setPhase p).responses = s.responses := rfl

@[simp] theorem State.finish_ctxs (s : State) (st : Status) (rs : List Word) :
    (s.finish st rs).ctxs = s.ctxs := rfl
@[simp] theorem State.finish_phase (s : State) (st : Status) (rs : List Word) :
    (s.finish st rs).phase = .idle := rfl
@[simp] theorem State.finish_inbuf (s : State) (st : Status) (rs : List Word) :
    (s.finish st rs).inbuf = s.inbuf := rfl
@[simp] theorem State.finish_port (s : State) (st : Status) (rs : List Word) :
    (s.finish st rs).port = s.port := rfl
@[simp] theorem State.finish_resetIn (s : State) (st : Status) (rs : List Word) :
    (s.finish st rs).resetIn = s.resetIn := rfl
@[simp] theorem State.finish_responses (s : State) (st : Status) (rs : List Word) :
    (s.finish st rs).responses = s.responses ++ [⟨st, rs⟩] := rfl

/-- A failed command is a command that ends with no result word (R271). -/
@[simp] theorem State.fail_eq_finish (s : State) (st : Status) : s.fail st = s.finish st [] := rfl

@[simp] theorem State.consume_ctxs (s : State) (rest : List Word) :
    (s.consume rest).ctxs = s.ctxs := rfl
@[simp] theorem State.consume_phase (s : State) (rest : List Word) :
    (s.consume rest).phase = s.phase := rfl
@[simp] theorem State.consume_inbuf (s : State) (rest : List Word) :
    (s.consume rest).inbuf = rest := rfl
@[simp] theorem State.consume_port (s : State) (rest : List Word) :
    (s.consume rest).port = s.port := rfl
@[simp] theorem State.consume_resetIn (s : State) (rest : List Word) :
    (s.consume rest).resetIn = s.resetIn := rfl
@[simp] theorem State.consume_responses (s : State) (rest : List Word) :
    (s.consume rest).responses = s.responses := rfl

@[simp] theorem State.receive_ctxs (s : State) : s.receive.ctxs = s.ctxs := by
  unfold State.receive; split <;> rfl
@[simp] theorem State.receive_phase (s : State) : s.receive.phase = s.phase := by
  unfold State.receive; split <;> rfl
@[simp] theorem State.receive_resetIn (s : State) : s.receive.resetIn = s.resetIn := by
  unfold State.receive; split <;> rfl
@[simp] theorem State.receive_responses (s : State) : s.receive.responses = s.responses := by
  unfold State.receive; split <;> rfl
/-- Taking a word only moves it from the port to INBUF: the two together are as before. -/
theorem State.receive_inbuf_port (s : State) :
    s.receive.inbuf ++ s.receive.port = s.inbuf ++ s.port := by
  unfold State.receive; split <;> simp [*]

@[simp] theorem State.applyReset_ctxs (s : State) :
    s.applyReset.ctxs = s.ctxs.map fun _ => Context.reset := rfl
@[simp] theorem State.applyReset_phase (s : State) : s.applyReset.phase = .idle := rfl
@[simp] theorem State.applyReset_inbuf (s : State) : s.applyReset.inbuf = [] := rfl
@[simp] theorem State.applyReset_port (s : State) : s.applyReset.port = s.port := rfl
@[simp] theorem State.applyReset_resetIn (s : State) : s.applyReset.resetIn = false := rfl
@[simp] theorem State.applyReset_responses (s : State) :
    s.applyReset.responses = s.responses := rfl

@[simp] theorem State.hostSend_port (s : State) (ws : List Word) :
    (s.hostSend ws).port = s.port ++ ws := rfl
@[simp] theorem State.hostSend_ctxs (s : State) (ws : List Word) :
    (s.hostSend ws).ctxs = s.ctxs := rfl
@[simp] theorem State.hostSend_phase (s : State) (ws : List Word) :
    (s.hostSend ws).phase = s.phase := rfl
@[simp] theorem State.hostSend_inbuf (s : State) (ws : List Word) :
    (s.hostSend ws).inbuf = s.inbuf := rfl
@[simp] theorem State.hostSend_resetIn (s : State) (ws : List Word) :
    (s.hostSend ws).resetIn = s.resetIn := rfl
@[simp] theorem State.hostSend_responses (s : State) (ws : List Word) :
    (s.hostSend ws).responses = s.responses := rfl
@[simp] theorem State.hostReset_resetIn (s : State) : s.hostReset.resetIn = true := rfl

end Sys2Proof.Machine
end

