-- ==== Sys2Proof/Laws/Ops.lean ====
section
/-!
SUPPORT. Laws/Ops.lean: one lemma per shared operation that says what it can answer, and what a
context reads after a write.
-/

namespace Sys2Proof.Machine

/-! ### Reading a context after a write -/

theorem State.ctx?_eq_some_lt {s : State} {c : Nibble} {x : Context} (h : s.ctx? c = some x) :
    c.toNat < s.ctxs.length := (List.getElem?_eq_some_iff.mp h).1

theorem State.ctx?_eq_none_iff (s : State) (c : Nibble) :
    s.ctx? c = none ↔ s.ctxs.length ≤ c.toNat := List.getElem?_eq_none_iff

theorem State.ctx?_mem {s : State} {c : Nibble} {x : Context} (h : s.ctx? c = some x) :
    x ∈ s.ctxs := List.mem_of_getElem? h

theorem State.ctx?_setCtx_same {s : State} {c : Nibble} (x : Context)
    (h : c.toNat < s.ctxs.length) : (s.setCtx c x).ctx? c = some x := by
  simp [State.ctx?, h]

theorem State.ctx?_setCtx_other (s : State) {c d : Nibble} (x : Context) (h : c ≠ d) :
    (s.setCtx c x).ctx? d = s.ctx? d := by
  have h' : c.toNat ≠ d.toNat := fun e => h (BitVec.eq_of_toNat_eq e)
  simp [State.ctx?, List.getElem?_set_ne h']

@[simp] theorem State.setCtx_setCtx (s : State) (c : Nibble) (x y : Context) :
    (s.setCtx c x).setCtx c y = s.setCtx c y := by
  simp [State.setCtx]

@[simp] theorem State.ctx?_finish (s : State) (st : Status) (rs : List Word) (c : Nibble) :
    (s.finish st rs).ctx? c = s.ctx? c := rfl

@[simp] theorem State.ctx?_setPhase (s : State) (p : Phase) (c : Nibble) :
    (s.setPhase p).ctx? c = s.ctx? c := rfl

@[simp] theorem State.ctx?_consume (s : State) (rest : List Word) (c : Nibble) :
    (s.consume rest).ctx? c = s.ctx? c := rfl

/-! ### The checks -/

theorem State.checkContext_ok_iff {s : State} {c : Nibble} {x : Context} :
    s.checkContext c = .ok x ↔ s.ctx? c = some x := by
  unfold State.checkContext; split <;> simp [*]

theorem State.checkContext_error_iff {s : State} {c : Nibble} {e : Status} :
    s.checkContext c = .error e ↔ s.ctx? c = none ∧ e = .badContext := by
  unfold State.checkContext
  split <;> simp only [Except.error.injEq, reduceCtorEq, *, true_and, false_and]
  exact eq_comm

theorem State.checkSeeded_ok_iff {s : State} {c : Nibble} {x : Context} :
    s.checkSeeded c = .ok x ↔ s.ctx? c = some x ∧ x.valid = true := by
  unfold State.checkSeeded State.checkContext
  cases s.ctx? c with
  | none => simp
  | some y => by_cases hy : y.valid = true <;> simp [hy] <;> rintro rfl <;> simp_all

theorem State.checkSeeded_error_iff {s : State} {c : Nibble} {e : Status} :
    s.checkSeeded c = .error e ↔
      (s.ctx? c = none ∧ e = .badContext) ∨
      (∃ x, s.ctx? c = some x ∧ x.valid = false ∧ e = .notSeeded) := by
  unfold State.checkSeeded State.checkContext
  cases s.ctx? c with
  | none => simpa using eq_comm
  | some y => by_cases hy : y.valid = true <;> simp [hy]; exact eq_comm

theorem State.checkFeedable_ok_iff {s : State} {c : Nibble} {x : Context} :
    s.checkFeedable c = .ok x ↔ s.ctx? c = some x ∧ x.valid = true ∧ width x.alg = 64 := by
  unfold State.checkFeedable
  cases h : s.checkSeeded c with
  | error e =>
    have := fun hx : s.ctx? c = some x ∧ x.valid = true => State.checkSeeded_ok_iff.mpr hx
    simp only [h, reduceCtorEq, imp_false, not_and] at this
    simp; exact fun a b => absurd b (this a)
  | ok y =>
    obtain ⟨h1, h2⟩ := State.checkSeeded_ok_iff.mp h
    simp only [h1, Option.some.injEq]
    by_cases hy : width y.alg = 64 <;> simp [hy] <;> rintro rfl <;> simp_all

theorem State.checkFeedable_error_iff {s : State} {c : Nibble} {e : Status} :
    s.checkFeedable c = .error e ↔
      s.checkSeeded c = .error e ∨
      (∃ x, s.ctx? c = some x ∧ x.valid = true ∧ width x.alg ≠ 64 ∧ e = .algMismatch) := by
  unfold State.checkFeedable
  cases h : s.checkSeeded c with
  | error d =>
    have := fun x (hx : s.ctx? c = some x ∧ x.valid = true) => State.checkSeeded_ok_iff.mpr hx
    simp only [h, reduceCtorEq, imp_false, not_and] at this
    simp; intro x a b; exact absurd b (this x a)
  | ok y =>
    obtain ⟨h1, h2⟩ := State.checkSeeded_ok_iff.mp h
    by_cases hy : width y.alg = 64 <;> simp [hy, h1, h2]; exact eq_comm

theorem State.checkRange_ok_iff {s : State} {c : Nibble} {range : U32} {x : Context} :
    s.checkRange c range = .ok x ↔
      s.ctx? c = some x ∧ x.valid = true ∧ width x.alg = 64 ∧ range ≠ 0 := by
  unfold State.checkRange
  cases h : s.checkFeedable c with
  | error e =>
    have := fun hx => State.checkFeedable_ok_iff (s := s) (c := c) (x := x) |>.mpr hx
    simp only [h, reduceCtorEq, imp_false, not_and] at this
    simp; exact fun a b d => absurd d (this a b)
  | ok y =>
    have hy := State.checkFeedable_ok_iff.mp h
    have hx := State.checkFeedable_ok_iff (s := s) (c := c) (x := x)
    rw [h, Except.ok.injEq] at hx
    by_cases hr : range = 0
    · simp [hr]
    · simp only [hr, if_false, Except.ok.injEq, hx, not_false_eq_true, and_true, ne_eq]

theorem State.checkRange_error_iff {s : State} {c : Nibble} {range : U32} {e : Status} :
    s.checkRange c range = .error e ↔
      s.checkFeedable c = .error e ∨
      (∃ x, s.checkFeedable c = .ok x ∧ range = 0 ∧ e = .invalidRange) := by
  unfold State.checkRange
  cases h : s.checkFeedable c with
  | error d => simp
  | ok y =>
    by_cases hr : range = 0
    · simp only [hr, if_true, Except.error.injEq, reduceCtorEq, Except.ok.injEq, exists_eq_left',
        true_and, false_or]
      exact eq_comm
    · simp [show range ≠ 0#32 from hr]

/-- A check never fails with OK. -/
theorem State.checkRange_error_ne_ok {s : State} {c : Nibble} {range : U32} {e : Status}
    (h : s.checkRange c range = .error e) : e ≠ .ok := by
  rcases State.checkRange_error_iff.mp h with h | ⟨_, _, _, rfl⟩
  · rcases State.checkFeedable_error_iff.mp h with h | ⟨_, _, _, _, rfl⟩
    · rcases State.checkSeeded_error_iff.mp h with ⟨_, rfl⟩ | ⟨_, _, _, rfl⟩ <;> simp
    · simp
  · simp

/-! ### A bounded draw's step -/

/-- The steps of a bounded draw differ only in whether a threshold is needed: step 0 accepts a draw
at or above `range` and else tests it as the loop does (R236). -/
theorem bdrawFirst_eq (v : Variant) (c : Nibble) (range : U32) (x : Context) (s : State) :
    bdrawFirst v c range x s =
      if lo32 (mulw x.feed.2 range) ≥ range then
        (s.setCtx c x.feed.1).finish .ok [zext64 (hi32 (mulw x.feed.2 range))]
      else bdrawRedraw v c range (threshold v range) x s := rfl

/-- What a loop step can answer: the draw's result, or the same loop with the new product. -/
theorem bdrawRedraw_cases (v : Variant) (c : Nibble) (range t : U32) (x : Context) (s : State) :
    (t ≤ lo32 (mulw x.feed.2 range) ∧ bdrawRedraw v c range t x s =
      (s.setCtx c x.feed.1).finish .ok [zext64 (hi32 (mulw x.feed.2 range))]) ∨
    (lo32 (mulw x.feed.2 range) < t ∧ bdrawRedraw v c range t x s =
      (s.setCtx c x.feed.1).setPhase (.loop c range t (mulw x.feed.2 range) v)) := by
  unfold bdrawRedraw
  by_cases h : t ≤ lo32 (mulw x.feed.2 range)
  · exact .inl ⟨h, by simp [h]⟩
  · exact .inr ⟨BitVec.not_le.mp h, by simp [h]⟩

/-- The loop step answers a next state exactly on a context that can be fed. -/
theorem bdrawLoop_eq_next_iff {v : Variant} {c : Nibble} {range t : U32} {s s' : State} :
    bdrawLoop v c range t s = .next s' ↔
      ∃ x, s.ctx? c = some x ∧ x.feedable = true ∧ s' = bdrawRedraw v c range t x s := by
  unfold bdrawLoop
  cases s.ctx? c with
  | none => simp
  | some x => by_cases h : x.feedable = true <;> simp [h]; exact eq_comm

end Sys2Proof.Machine
end

