-- ==== Sys2Proof/Laws/PerInstr.lean ====
section
/-!
SUPPORT. Laws/PerInstr.lean: the family `EncodedLength`, one lemma per constructor: the encoding of a
well-formed instruction is as long as its own header announces (R70, R71).
-/

namespace Sys2Proof.Laws.EncodedLength

/-- The encoding has `1 + NW` words, where `NW` is the field of its header. -/
def Statement (i : Instr) : Prop :=
  i.WellFormed → (encode i).length = 1 + (nwOf (encodeHeader i)).toNat

/-- What holds of every instruction: the header announces the payload. -/
theorem of_header (i : Instr) : Statement i := fun h => by
  rw [nwOf_encodeHeader i h]; simp [encode]; omega

theorem seed (c : Nibble) (alg : Alg) (payload : List Word) :
    Statement (.seed c alg payload) := of_header _
theorem next (c : Nibble) : Statement (.next c) := of_header _
theorem feed32 (c : Nibble) : Statement (.feed32 c) := of_header _
theorem bdrawDf (c : Nibble) (range : U32) : Statement (.bdrawDf c range) := of_header _
theorem bdrawDa (c : Nibble) (range : U32) : Statement (.bdrawDa c range) := of_header _
theorem cvtm (x : Word) : Statement (.cvtm x) := of_header _
theorem cvtb (x : Word) : Statement (.cvtb x) := of_header _
theorem nextdM (c : Nibble) : Statement (.nextdM c) := of_header _
theorem nextdB (c : Nibble) : Statement (.nextdB c) := of_header _
theorem rdst (c : Nibble) : Statement (.rdst c) := of_header _

end Sys2Proof.Laws.EncodedLength
end

