-- ==== Sys2Proof/Laws/Transitions.lean ====
section
/-!
SUPPORT. Laws/Transitions.lean: the fields that `advance`, `draw64` and `feed` leave alone, and that a
transition keeps the form of the word slots (R23).
-/

namespace Sys2Proof.Machine

/-! ### Fields left alone -/

@[simp] theorem Context.advance_valid (x : Context) : x.advance.1.valid = x.valid := rfl
@[simp] theorem Context.advance_alg (x : Context) : x.advance.1.alg = x.alg := rfl
@[simp] theorem Context.advance_half (x : Context) : x.advance.1.half = x.half := rfl
@[simp] theorem Context.advance_cache (x : Context) : x.advance.1.cache = x.cache := rfl
@[simp] theorem Context.advance_w (x : Context) :
    x.advance.1.w = (transition x.alg x.w).1 := rfl
@[simp] theorem Context.advance_sample (x : Context) :
    x.advance.2 = (transition x.alg x.w).2 := rfl

/-- `draw64` advances once or twice and changes nothing but the words (R206). -/
theorem Context.draw64_cases (x : Context) :
    (width x.alg = 64 ∧ x.draw64 = x.advance) ∨
    (width x.alg ≠ 64 ∧
      x.draw64 = (x.advance.1.advance.1,
        concat32 (lo32 x.advance.2) (lo32 x.advance.1.advance.2))) := by
  unfold Context.draw64
  by_cases h : width x.alg = 64
  · exact .inl ⟨h, if_pos h⟩
  · exact .inr ⟨h, if_neg h⟩

@[simp] theorem Context.draw64_valid (x : Context) : x.draw64.1.valid = x.valid := by
  rcases x.draw64_cases with ⟨_, h⟩ | ⟨_, h⟩ <;> simp [h]
@[simp] theorem Context.draw64_alg (x : Context) : x.draw64.1.alg = x.alg := by
  rcases x.draw64_cases with ⟨_, h⟩ | ⟨_, h⟩ <;> simp [h]

/-- `feed` on an empty feeder (R230). -/
theorem Context.feed_of_empty {x : Context} (h : x.half = false) :
    x.feed = ({ x.advance.1 with half := true, cache := lo32 x.advance.2 }, hi32 x.advance.2) := by
  simp [Context.feed, h]

/-- `feed` on a half-cached feeder (R230). -/
theorem Context.feed_of_cached {x : Context} (h : x.half = true) :
    x.feed = ({ x with half := false, cache := 0 }, x.cache) := by
  simp [Context.feed, h]

@[simp] theorem Context.feed_valid (x : Context) : x.feed.1.valid = x.valid := by
  cases h : x.half <;> simp [Context.feed, h]
@[simp] theorem Context.feed_alg (x : Context) : x.feed.1.alg = x.alg := by
  cases h : x.half <;> simp [Context.feed, h]
@[simp] theorem Context.feed_half (x : Context) : x.feed.1.half = !x.half := by
  cases h : x.half <;> simp [Context.feed, h]
@[simp] theorem Context.feed_feedable (x : Context) : x.feed.1.feedable = x.feedable := by
  simp [Context.feedable]

theorem Context.feedable_iff (x : Context) :
    x.feedable = true ↔ x.valid = true ∧ width x.alg = 64 := by
  simp [Context.feedable]

/-! ### The form of the word slots -/

theorem width_cases (a : Alg) : width a = 32 ∨ width a = 64 := by cases a <;> simp [width]

/-- Which slots a transition of a 64-bit algorithm writes (R22).  The new values are left abstract:
a proof that needs only the slots must not make the kernel compare the arithmetic. -/
theorem transition_wide (a : Alg) (w : Words) (ha : width a = 64) : ∃ w' v, transition a w = (w', v) ∧
    ((arity a = 1 ∧ ∃ p, w' = { w with w0 := p }) ∨
     (arity a = 2 ∧ ∃ p q, w' = { w with w0 := p, w1 := q }) ∨
     (arity a = 4 ∧ ∃ p q r u, w' = { w with w0 := p, w1 := q, w2 := r, w3 := u })) := by
  cases a with
  | xorshift32 | xorshift128 | xoshiro128pp | splitmix32 | xorwow => simp [width] at ha
  | xorshift64 | splitmix64 => exact ⟨_, _, rfl, .inl ⟨rfl, _, rfl⟩⟩
  | xorshift128p => exact ⟨_, _, rfl, .inr (.inl ⟨rfl, _, _, rfl⟩)⟩
  | xoshiro256pp => exact ⟨_, _, rfl, .inr (.inr ⟨rfl, _, _, _, _, rfl⟩)⟩

/-- Which slots a transition of a 32-bit algorithm writes, each zero-extended as its sample is
(R22, R23). -/
theorem transition_narrow_shape (a : Alg) (w : Words) (ha : width a = 32) :
    ∃ w' v, transition a w = (w', zext64 v) ∧
    ((arity a = 1 ∧ ∃ p, w' = { w with w0 := zext64 p }) ∨
     (arity a = 4 ∧ ∃ p q r u,
       w' = { w with w0 := zext64 p, w1 := zext64 q, w2 := zext64 r, w3 := zext64 u }) ∨
     (arity a = 6 ∧ ∃ p q r u y z,
       w' = ⟨zext64 p, zext64 q, zext64 r, zext64 u, zext64 y, zext64 z⟩)) := by
  cases a with
  | xorshift64 | xorshift128p | xoshiro256pp | splitmix64 => simp [width] at ha
  | xorshift32 | splitmix32 => exact ⟨_, _, rfl, .inl ⟨rfl, _, rfl⟩⟩
  | xorshift128 | xoshiro128pp => exact ⟨_, _, rfl, .inr (.inl ⟨rfl, _, _, _, _, rfl⟩)⟩
  | xorwow => exact ⟨_, _, rfl, .inr (.inr ⟨rfl, _, _, _, _, _, _, rfl⟩)⟩

/-- Slots past `W[5]` do not exist. -/
theorem Words.get_of_ge (w : Words) {i : Nat} (hi : 6 ≤ i) : w.get i = 0 := by
  obtain ⟨k, rfl⟩ : ∃ k, i = k + 6 := ⟨i - 6, by omega⟩
  rfl

theorem Words.slot_cases (i : Nat) : i = 0 ∨ i = 1 ∨ i = 2 ∨ i = 3 ∨ i = 4 ∨ i = 5 ∨ 6 ≤ i := by
  omega

/-- Every word a transition of a 32-bit algorithm writes is below `2^32`, and so is its sample
(R23 (2), R79). -/
theorem transition_narrow (a : Alg) (w : Words) (ha : width a = 32)
    (hw : ∀ i, (w.get i).toNat < 2 ^ 32) :
    (∀ i, ((transition a w).1.get i).toNat < 2 ^ 32) ∧ (transition a w).2.toNat < 2 ^ 32 := by
  have z := zext64_lt
  obtain ⟨w', v, h, hc⟩ := transition_narrow_shape a w ha
  rw [h]
  refine ⟨fun i => ?_, z v⟩
  have h0 := hw 0; have h1 := hw 1; have h2 := hw 2; have h3 := hw 3; have h4 := hw 4
  have h5 := hw 5
  rcases hc with ⟨_, p, rfl⟩ | ⟨_, p, q, r, u, rfl⟩ | ⟨_, p, q, r, u, y, c, rfl⟩ <;>
    rcases Words.slot_cases i with rfl | rfl | rfl | rfl | rfl | rfl | h6 <;>
    first
      | exact z _
      | assumption
      | (rw [Words.get_of_ge _ h6]; decide)

/-- A transition leaves the slots past the arity alone (R23 (1)). -/
theorem transition_unused (a : Alg) (w : Words) (i : Nat) (hi : arity a ≤ i) :
    (transition a w).1.get i = w.get i := by
  rcases Words.slot_cases i with h | h | h | h | h | h | h6
  case inr.inr.inr.inr.inr.inr => rw [Words.get_of_ge _ h6, Words.get_of_ge _ h6]
  all_goals
    subst h
    rcases width_cases a with ha | ha
    · obtain ⟨w', v, h, hc⟩ := transition_narrow_shape a w ha
      rw [h]
      rcases hc with ⟨hn, p, rfl⟩ | ⟨hn, p, q, r, u, rfl⟩ | ⟨hn, p, q, r, u, y, c, rfl⟩ <;>
        first
          | omega
          | rfl
    · obtain ⟨w', v, h, hc⟩ := transition_wide a w ha
      rw [h]
      rcases hc with ⟨hn, p, rfl⟩ | ⟨hn, p, q, rfl⟩ | ⟨hn, p, q, r, u, rfl⟩ <;>
        first
          | omega
          | rfl

end Sys2Proof.Machine
end

