-- ==== Sys2Proof/Laws/Step.lean ====
section
/-!
SUPPORT. Laws/Step.lean: everything a command can do and everything a step can do, said once.
-/

namespace Sys2Proof.Machine

/-- What a fed, drawn or advanced context is (R139, R206, R230). -/
def Context.DrawnTo (x y : Context) : Prop :=
  y = x.advance.1 ∨ y = x.draw64.1 ∨ (y = x.feed.1 ∧ width x.alg = 64)

/-- Everything a command can do. -/
inductive CommandResult (i : Instr) (s : State) : State → Prop where
  /-- it fails: only its response is emitted -/
  | failed (e : Status) (he : e ≠ .ok) : CommandResult i s (s.finish e [])
  /-- it reads or converts, and answers -/
  | answered (rs : List Word) (hrs : rs.length = 1 ∨ rs.length = 8) :
    CommandResult i s (s.finish .ok rs)
  /-- it seeds the context it names -/
  | seeded (c : Nibble) (a : Alg) (p : List Word) (hi : i = .seed c a p)
    (hc : c.toNat < s.ctxs.length) (hp : seedLegal a p = true) :
    CommandResult i s ((s.setCtx c (Context.seeded a p)).finish .ok [])
  /-- it draws from the context it names, and answers one word -/
  | drawn (c : Nibble) (x y : Context) (r : Word) (hi : namedContext i = some c)
    (hx : s.ctx? c = some x) (hv : x.valid = true) (hy : x.DrawnTo y) :
    CommandResult i s ((s.setCtx c y).finish .ok [r])
  /-- it draws from the context it names, and enters the rejection loop -/
  | looping (c : Nibble) (range : U32) (x : Context) (v : Variant)
    (hi : (i = .bdrawDf c range ∧ v = .df) ∨ (i = .bdrawDa c range ∧ v = .da))
    (hx : s.ctx? c = some x) (hf : x.feedable = true) (hr : range ≠ 0)
    (hlow : lo32 (mulw x.feed.2 range) < threshold v range) :
    CommandResult i s ((s.setCtx c x.feed.1).setPhase
      (.loop c range (threshold v range) (mulw x.feed.2 range) v))

theorem checkSeeded_error_ne_ok {s : State} {c : Nibble} {e : Status}
    (h : s.checkSeeded c = .error e) : e ≠ .ok := by
  rcases State.checkSeeded_error_iff.mp h with ⟨_, rfl⟩ | ⟨_, _, _, rfl⟩ <;> simp

theorem checkFeedable_error_ne_ok {s : State} {c : Nibble} {e : Status}
    (h : s.checkFeedable c = .error e) : e ≠ .ok := by
  rcases State.checkFeedable_error_iff.mp h with h | ⟨_, _, _, _, rfl⟩
  · exact checkSeeded_error_ne_ok h
  · simp

/-- What a bounded draw can do (R236 to R239). -/
theorem bdraw_result {i : Instr} {v : Variant} {c : Nibble} {range : U32}
    (hi : (i = .bdrawDf c range ∧ v = .df) ∨ (i = .bdrawDa c range ∧ v = .da)) (s : State) :
    CommandResult i s (bdraw v c range s) := by
  have hn : namedContext i = some c := by rcases hi with ⟨rfl, _⟩ | ⟨rfl, _⟩ <;> rfl
  unfold bdraw
  cases h : s.checkRange c range with
  | error e => exact .failed e (State.checkRange_error_ne_ok h)
  | ok x =>
    obtain ⟨h1, h2, h3, h4⟩ := State.checkRange_ok_iff.mp h
    have hd : x.DrawnTo x.feed.1 := .inr (.inr ⟨rfl, h3⟩)
    show CommandResult i s (bdrawFirst v c range x s)
    rw [bdrawFirst_eq]
    split
    · exact .drawn c x _ _ hn h1 h2 hd
    · rcases bdrawRedraw_cases v c range (threshold v range) x s with ⟨_, he⟩ | ⟨hl, he⟩
      · exact he ▸ .drawn c x _ _ hn h1 h2 hd
      · exact he ▸ .looping c range x v hi h1 (x.feedable_iff.mpr ⟨h2, h3⟩) h4 hl

/-- What a drawing conversion can do (R207, R208). -/
theorem drawConverted_result {i : Instr} {c : Nibble} (hi : namedContext i = some c)
    (conv : Word → Word) (s : State) : CommandResult i s (drawConverted conv c s) := by
  unfold drawConverted
  cases h : s.checkSeeded c with
  | error e => exact .failed e (checkSeeded_error_ne_ok h)
  | ok x =>
    obtain ⟨h1, h2⟩ := State.checkSeeded_ok_iff.mp h
    exact .drawn c x _ _ hi h1 h2 (.inr (.inl rfl))

/-- Whatever a command answers is one of the results above. -/
theorem exec_result {i : Instr} {s t : State} (h : exec i s = .next t) : CommandResult i s t := by
  cases i with
  | seed c a p =>
    simp only [exec, execSeed, Host.Outcome.next.injEq] at h
    subst h
    cases hc : s.checkContext c with
    | error e => exact .failed e (by obtain ⟨_, rfl⟩ := State.checkContext_error_iff.mp hc; simp)
    | ok x =>
      show CommandResult _ s (if seedLegal a p = true then _ else _)
      split
      · rename_i hs
        exact .seeded c a p rfl (State.ctx?_eq_some_lt (State.checkContext_ok_iff.mp hc)) hs
      · exact .failed _ (by simp)
  | next c =>
    simp only [exec, execNext, Host.Outcome.next.injEq] at h
    subst h
    cases hc : s.checkSeeded c with
    | error e => exact .failed e (checkSeeded_error_ne_ok hc)
    | ok x =>
      obtain ⟨h1, h2⟩ := State.checkSeeded_ok_iff.mp hc
      exact .drawn c x _ _ rfl h1 h2 (.inl rfl)
  | feed32 c =>
    simp only [exec, execFeed32, Host.Outcome.next.injEq] at h
    subst h
    cases hc : s.checkFeedable c with
    | error e => exact .failed e (checkFeedable_error_ne_ok hc)
    | ok x =>
      obtain ⟨h1, h2, h3⟩ := State.checkFeedable_ok_iff.mp hc
      exact .drawn c x _ _ rfl h1 h2 (.inr (.inr ⟨rfl, h3⟩))
  | bdrawDf c range => exact Host.Outcome.next.inj h ▸ bdraw_result (.inl ⟨rfl, rfl⟩) s
  | bdrawDa c range => exact Host.Outcome.next.inj h ▸ bdraw_result (.inr ⟨rfl, rfl⟩) s
  | cvtm x => exact Host.Outcome.next.inj h ▸ .answered _ (.inl rfl)
  | cvtb x => exact Host.Outcome.next.inj h ▸ .answered _ (.inl rfl)
  | nextdM c => exact Host.Outcome.next.inj h ▸ drawConverted_result rfl _ s
  | nextdB c => exact Host.Outcome.next.inj h ▸ drawConverted_result rfl _ s
  | rdst c =>
    simp only [exec, execRdst, Host.Outcome.next.injEq] at h
    subst h
    cases hc : s.checkContext c with
    | error e => exact .failed e (by obtain ⟨_, rfl⟩ := State.checkContext_error_iff.mp hc; simp)
    | ok x => exact .answered _ (.inr rfl)

/-- Every command answers a next state from every state: no command stops the block. -/
theorem exec_answers (i : Instr) (s : State) : ∃ t, exec i s = .next t := by
  cases i <;> exact ⟨_, rfl⟩

/-- Everything a step can do. -/
inductive StepResult (s : State) : State → Prop where
  /-- the reset event -/
  | reset (hr : s.resetIn = true) : StepResult s s.applyReset
  /-- one feed of the running bounded draw -/
  | redraw (hr : s.resetIn = false) (c : Nibble) (range th : U32) (m : Word) (v : Variant)
    (x : Context) (hp : s.phase = .loop c range th m v) (hx : s.ctx? c = some x)
    (hf : x.feedable = true) : StepResult s (bdrawRedraw v c range th x s)
  /-- the intake of a word, or a wait -/
  | received (hr : s.resetIn = false) (hp : s.phase = .idle) (hd : decode s.inbuf = .incomplete) :
    StepResult s s.receive
  /-- the answer to an illegal command -/
  | illegal (hr : s.resetIn = false) (hp : s.phase = .idle) (why : Reject) (rest : List Word)
    (hd : decode s.inbuf = .illegal why rest) :
    StepResult s ((s.consume rest).finish .illegalCommand [])
  /-- a command -/
  | command (hr : s.resetIn = false) (hp : s.phase = .idle) (i : Instr) (rest : List Word)
    (hd : decode s.inbuf = .command i rest) (t : State) (ht : CommandResult i (s.consume rest) t) :
    StepResult s t

/-- Whatever a step answers is one of the results above. -/
theorem step_result {s t : State} (h : step s = .next t) : StepResult s t := by
  unfold step at h
  cases hr : s.resetIn with
  | true =>
    simp only [hr, if_true, Host.Outcome.next.injEq] at h
    exact h ▸ .reset hr
  | false =>
    simp only [hr, Bool.false_eq_true, if_false] at h
    split at h
    · rename_i c range th m v hp
      obtain ⟨x, h1, h2, rfl⟩ := bdrawLoop_eq_next_iff.mp h
      exact .redraw hr c range th m v x hp h1 h2
    · rename_i hp
      split at h
      · rename_i hd
        exact Host.Outcome.next.inj h ▸ .received hr hp hd
      · rename_i why rest hd
        exact Host.Outcome.next.inj h ▸ .illegal hr hp why rest hd
      · rename_i i rest hd
        exact .command hr hp i rest hd t (exec_result h)

/-! ### Runs -/

@[simp] theorem stepsFrom_zero (s : State) : stepsFrom 0 s = .next s := rfl

/-- A run begins with its first step. -/
theorem stepsFrom_succ_of_step {n : Nat} {s t : State} (h : step s = .next t) :
    stepsFrom (n + 1) s = stepsFrom n t := by
  simp [stepsFrom, h]

/-- A run ends with its last step. -/
theorem stepsFrom_succ_of_run {n : Nat} {s t : State} (h : stepsFrom n s = .next t) :
    stepsFrom (n + 1) s = step t := by
  induction n generalizing s with
  | zero =>
    obtain rfl : s = t := Host.Outcome.next.inj h
    cases hs : step s <;> simp [stepsFrom, hs]
  | succ n ih =>
    cases hs : step s with
    | next u =>
      rw [stepsFrom_succ_of_step hs] at h ⊢
      exact ih h
    | fault r => simp [stepsFrom, hs] at h
    | refused r => simp [stepsFrom, hs] at h

/-- `stepsFrom` is the host's `run` of this core. -/
theorem stepsFrom_eq_run (n : Nat) (s : State) : stepsFrom n s = Host.Core.run core n s := by
  induction n generalizing s with
  | zero => rfl
  | succ n ih =>
    have hc : core.step s = step s := rfl
    cases hs : step s <;> rw [hs] at hc <;> simp [stepsFrom, Host.Core.run, hs, hc, ih] <;> rfl

end Sys2Proof.Machine
end

