-- ==== Sys2Proof/Laws/Run.lean ====
section
/-!
SUPPORT. Laws/Run.lean: the small lemmas of a run (R310).
-/

namespace Sys2Proof.Machine

theorem State.ready_iff (s : State) :
    s.ready = true ↔ s.phase = .idle ∧ s.inbuf = [] ∧ s.port = [] ∧ s.resetIn = false := by
  simp [State.ready, and_assoc]

/-- A complete command is a header with as many words as it announces. -/
theorem isCompleteCommand_iff (ws : List Word) :
    isCompleteCommand ws = true ↔ ∃ h ps, ws = h :: ps ∧ ps.length = (nwOf h).toNat := by
  cases ws <;> simp [isCompleteCommand]

theorem Run.isOver_iff (r : Run) (t : State) : r.isOver t = true ↔
    t.ready = true ∧ ∃ k, r.launch.owed = some k ∧
      t.responses.length = r.launch.responses.length + k + r.commands.length := by
  cases h : r.launch.owed <;> simp [Run.isOver, h]

theorem State.owed_eq_some_iff (s : State) (k : Nat) :
    s.owed = some k ↔ ∃ n, s.waiting = some n ∧ k = s.phase.executing + n := by
  simp [State.owed, eq_comm]

/-- A state between commands owes no response. -/
theorem State.owed_of_ready {s : State} (h : s.ready = true) : s.owed = some 0 := by
  obtain ⟨hp, hi, hq, _⟩ := s.ready_iff.mp h
  simp [State.owed, State.waiting, hp, hi, hq, countCommands, Phase.executing]

/-- The payload words of a command count with its header. -/
theorem countCommands_payload (ps rest : List Word) :
    countCommands ps.length (ps ++ rest) = countCommands 0 rest := by
  induction ps with
  | nil => rfl
  | cons p ps ih => simpa [countCommands] using ih

/-- A complete command at the head counts one. -/
theorem countCommands_command {ws : List Word} (h : isCompleteCommand ws = true)
    (rest : List Word) :
    countCommands 0 (ws ++ rest) = (countCommands 0 rest).map (· + 1) := by
  obtain ⟨hd, ps, rfl, hl⟩ := (isCompleteCommand_iff ws).mp h
  rw [List.cons_append, countCommands, ← hl, countCommands_payload]

/-- Words after whole commands count on from them. -/
theorem countCommands_append {n : Nat} {ws : List Word} {k : Nat}
    (h : countCommands n ws = some k) (rest : List Word) :
    countCommands n (ws ++ rest) = (countCommands 0 rest).map (k + ·) := by
  induction ws generalizing n k with
  | nil =>
    cases n with
    | zero => obtain rfl : 0 = k := by simpa [countCommands] using h
              simp
    | succ n => simp [countCommands] at h
  | cons w ws ih =>
    cases n with
    | zero =>
      simp only [countCommands, Option.map_eq_some_iff] at h
      obtain ⟨j, hj, rfl⟩ := h
      rw [List.cons_append, countCommands, ih hj, Option.map_map]
      congr 1; funext x; simp; omega
    | succ n => rw [List.cons_append, countCommands]; exact ih (by simpa [countCommands] using h)

/-- A list of complete commands counts its length. -/
theorem countCommands_flatten {cs : List (List Word)}
    (h : ∀ ws ∈ cs, isCompleteCommand ws = true) : countCommands 0 cs.flatten = some cs.length := by
  induction cs with
  | nil => rfl
  | cons ws cs ih =>
    rw [List.flatten_cons, countCommands_command (h ws (by simp)),
      ih fun w hw => h w (by simp [hw])]
    simp

/-- The words of an incomplete command end inside it. -/
theorem countCommands_of_incomplete {ws : List Word} (hne : ws ≠ [])
    (h : decode ws = .incomplete) : countCommands 0 ws = none := by
  have short : ∀ (n : Nat) (l : List Word), l.length < n → countCommands n l = none := by
    intro n l
    induction l generalizing n with
    | nil => intro hl; cases n <;> simp_all [countCommands]
    | cons w l ih =>
      intro hl
      cases n with
      | zero => simp at hl
      | succ n => exact ih n (by simpa using hl)
  cases ws with
  | nil => exact absurd rfl hne
  | cons w ws =>
    have hl : ws.length < (nwOf w).toNat := by
      by_contra hl
      simp only [decode, if_neg hl] at h
      split at h <;> cases h
    simp [countCommands, short _ _ hl]

@[simp] theorem Run.after_zero (r : Run) : r.after 0 = .next r.start := rfl

/-- A run that has an observation has a state in which it is over. -/
theorem Run.observation_eq_some_iff (r : Run) (n : Nat) (o : Observation) :
    r.observation n = some o ↔ ∃ t, r.after n = .next t ∧ r.isOver t = true ∧ r.observe t = o := by
  unfold Run.observation
  cases r.after n <;> simp

/-- Two runs of steps in a row are one. -/
theorem stepsFrom_add {m : Nat} {s t : State} (h : stepsFrom m s = .next t) (n : Nat) :
    stepsFrom (m + n) s = stepsFrom n t := by
  induction m generalizing s with
  | zero => obtain rfl := Host.Outcome.next.inj h; simp
  | succ m ih =>
    cases hs : step s with
    | next u =>
      rw [stepsFrom_succ_of_step hs] at h
      rw [Nat.succ_add, stepsFrom_succ_of_step hs, ih h]
    | fault r => simp [stepsFrom, hs] at h
    | refused r => simp [stepsFrom, hs] at h

end Sys2Proof.Machine
end

