-- ==== Sys2Proof/Tests/Slice0.lean ====
section
/-!
SUPPORT. Tests/Slice0.lean: tests of the model on the spec's own vectors (95_test_vectors.md and the
examples of the rules), and for each statement with hypotheses a witness that meets them.
-/

namespace Sys2Proof.Tests

open Sys2Proof.Machine

/-! ### Helpers -/

/-- A seeded context holding the given words, its feeder empty. -/
def ctx (a : Alg) (w : Words) : Context := { valid := true, alg := a, w := w, half := false, cache := 0 }

/-- A block with the given contexts, idle, as reset leaves the rest. -/
def block (xs : List Context) : State := { State.resetWith 0 with ctxs := xs }

/-- One word in slot 0. -/
def one (x : Word) : Words := ⟨x, 0, 0, 0, 0, 0⟩

/-- The contexts and responses an outcome leaves; none where it is no next state. -/
def seen : Host.Outcome State Fault Refusal → Option (List Context × List Response)
  | .next s => some (s.ctxs, s.responses)
  | .fault _ => none
  | .refused _ => none

/-- The phase an outcome leaves. -/
def phaseOf : Host.Outcome State Fault Refusal → Option Phase
  | .next s => some s.phase
  | .fault _ => none
  | .refused _ => none

/-- The block state of 95_test_vectors.md section 2.7. -/
def vectors : State :=
  block [ctx .xorshift32 (one 1), Context.reset, ctx .xorshift64 (one 1),
    ctx .xoshiro256pp ⟨1, 2, 3, 4, 0, 0⟩]

/-- `s` with a command in INBUF. -/
def given (s : State) (ws : List Word) : State := { s with inbuf := ws }

/-- The status of the last response after a step. -/
def statusAfter (s : State) (ws : List Word) : Option Status :=
  match seen (step (given s ws)) with
  | some (_, rs) => rs.getLast?.map (·.status)
  | none => none

/-! ### WellFormed: the one check refuses 16 payload words and admits 15 -/

theorem test_wellFormed_refuses_16_payload_words :
    ¬ (Instr.seed 0 .xorwow (List.replicate 16 0)).WellFormed := by decide
theorem test_wellFormed_admits_15_payload_words :
    (Instr.seed 0 .xorwow (List.replicate 15 0)).WellFormed := by decide

/-! ### Decoding: words written out from R72 to R75 and 95_test_vectors.md -/

theorem test_decode_seed :
    decode [0x0113200000000000, 0, 0] = .command (.seed 1 .xorshift128p [0, 0]) [] := by decide
theorem test_decode_seed_xorwow :
    decode [0x0118600000000000, 0, 0, 0, 1, 0, 0] =
      .command (.seed 1 .xorwow [0, 0, 0, 1, 0, 0]) [] := by decide
theorem test_decode_next : decode [0x02F0000000000000] = .command (.next 15) [] := by decide
theorem test_decode_feed32 : decode [0x0330000000000000] = .command (.feed32 3) [] := by decide
theorem test_decode_bdrawDf :
    decode [0x0400000080000001] = .command (.bdrawDf 0 0x80000001) [] := by decide
theorem test_decode_bdrawDa :
    decode [0x05100000FFFFFFFF] = .command (.bdrawDa 1 0xFFFFFFFF) [] := by decide
theorem test_decode_cvtm : decode [0x0600100000000000, 1] = .command (.cvtm 1) [] := by decide
theorem test_decode_cvtb : decode [0x0700100000000000, 2] = .command (.cvtb 2) [] := by decide
theorem test_decode_nextdM : decode [0x0810000000000000] = .command (.nextdM 1) [] := by decide
theorem test_decode_nextdB : decode [0x0910000000000000] = .command (.nextdB 1) [] := by decide
theorem test_decode_rdst : decode [0x0A20000000000000] = .command (.rdst 2) [] := by decide
theorem test_encode_seed :
    encode (.seed 1 .xorshift64 [777]) = [0x0111100000000000, 0x309] := by decide
theorem test_decode_leaves_the_next_header :
    decode [0x0600100000000000, 1, 0x0200000000000000] =
      .command (.cvtm 1) [0x0200000000000000] := by decide
theorem test_decode_waits_for_payload : decode [0x0118600000000000, 1, 2] = .incomplete := by decide

theorem test_reject_opcode_00 : decode [0] = .illegal .reservedOpcode [] := by decide
theorem test_reject_opcode_0B :
    decode [0x0B00000000000000] = .illegal .reservedOpcode [] := by decide
theorem test_reject_opcode_FF_consumes_its_payload :
    decode [0xFF00200000000000, 7, 8, 9] = .illegal .reservedOpcode [9] := by decide
theorem test_reject_rsv : decode [0x0220000100000000] = .illegal .reservedBits [] := by decide
theorem test_reject_alg : decode [0x0221000000000000] = .illegal .algNotZero [] := by decide
theorem test_reject_imm : decode [0x0220000000000005] = .illegal .immNotZero [] := by decide
theorem test_reject_nw : decode [0x0220100000000000, 0] = .illegal .payloadCount [] := by decide
theorem test_reject_cvtm_nw : decode [0x0600000000000000] = .illegal .payloadCount [] := by decide
theorem test_reject_seed_alg :
    decode [0x01F9100000000000, 1] = .illegal .reservedAlgorithm [] := by decide
theorem test_reject_cvtm_ctx :
    decode [0x0610100000000000, 0] = .illegal .contextNotZero [] := by decide
theorem test_tableWord_seed :
    decodeTableWord 64 0x0100000000000000 = some (.seed 0 .xorshift32 []) := by decide
theorem test_tableWord_cvtm : decodeTableWord 64 0x0600100000000000 = some (.cvtm 0) := by decide

/-! ### One step each, from 95_test_vectors.md -/

/-- S1: SEED c0, xorshift32, {1}. -/
theorem test_seed_xorshift32 :
    seen (exec (.seed 0 .xorshift32 [1]) (block [Context.reset])) =
      some ([ctx .xorshift32 (one 1)], [⟨.ok, []⟩]) := by decide
/-- Section 2.7: a xorwow seed whose first four words are zero. -/
theorem test_seed_xorwow_refused :
    seen (exec (.seed 0 .xorwow [0, 0, 0, 0, 1, 5]) (block [Context.reset])) =
      some ([Context.reset], [⟨.precondition, []⟩]) := by decide
/-- S1: the first output of xorshift32 from 1. -/
theorem test_next_xorshift32 :
    seen (exec (.next 0) (block [ctx .xorshift32 (one 1)])) =
      some ([ctx .xorshift32 (one 0x42021)], [⟨.ok, [0x42021]⟩]) := by decide
/-- Section 2.2: xorwow from {1, 2, 3, 4, 5, 0}. -/
theorem test_next_xorwow :
    seen (exec (.next 0) (block [ctx .xorwow ⟨1, 2, 3, 4, 5, 0⟩])) =
      some ([ctx .xorwow ⟨0x1D, 1, 2, 3, 4, 0x587C5⟩], [⟨.ok, [0x587E2]⟩]) := by decide
/-- Section 2.6: the first feed of xorshift64 from 777. -/
theorem test_feed32_high_half :
    seen (exec (.feed32 0) (block [ctx .xorshift64 (one 777)])) =
      some ([{ ctx .xorshift64 (one 0xC3C2FFE14F) with half := true, cache := 0xC2FFE14F }],
        [⟨.ok, [0xC3]⟩]) := by decide
/-- Section 2.6: the second feed. -/
theorem test_feed32_low_half :
    seen (exec (.feed32 0)
      (block [{ ctx .xorshift64 (one 0xC3C2FFE14F) with half := true, cache := 0xC2FFE14F }])) =
      some ([ctx .xorshift64 (one 0xC3C2FFE14F)], [⟨.ok, [0xC2FFE14F]⟩]) := by decide
/-- P2: BDRAW_DF c1, 1000 after two feeds. -/
theorem test_bdrawDf_accepts :
    seen (exec (.bdrawDf 0 1000) (block [ctx .xorshift64 (one 0xC3C2FFE14F)])) =
      some ([{ ctx .xorshift64 (one 0x90C2453A5C31AD4D) with half := true, cache := 0x5C31AD4D }],
        [⟨.ok, [0x235]⟩]) := by decide
/-- Section 2.6, seed 8: the first draw is tested before a redraw (D18). -/
theorem test_bdrawDf_tests_the_first_draw :
    seen (exec (.bdrawDf 0 0xAAAAAAAB) (block [ctx .xorshift64 (one 8)])) =
      some ([{ ctx .xorshift64 (one 0x204110208) with half := true, cache := 0x04110208 }],
        [⟨.ok, [1]⟩]) := by decide
/-- Section 2.6, seed 1: the first draw of range 0x80000001 is rejected. -/
theorem test_bdrawDa_enters_the_loop :
    phaseOf (exec (.bdrawDa 0 0x80000001) (block [ctx .xorshift64 (one 1)])) =
      some (.loop 0 0x80000001 0x7FFFFFFF 0 .da) := by decide
/-- R238: the loop's next feed is accepted. -/
theorem test_bdrawDa_loop_answers :
    seen (bdrawLoop .da 0 0x80000001 0x7FFFFFFF
      (block [{ ctx .xorshift64 (one 0x40822041) with half := true, cache := 0x40822041 }])) =
      some ([ctx .xorshift64 (one 0x40822041)], [⟨.ok, [0x20411020]⟩]) := by decide
/-- Section 2.4. -/
theorem test_cvtm : seen (exec (.cvtm 0xC0183387D1AE3B02) (block [])) =
    some ([], [⟨.ok, [0x3FE8030670FA35C7]⟩]) := by decide
/-- Section 2.4: the smallest nonzero result. -/
theorem test_cvtm_smallest : seen (exec (.cvtm 0x800) (block [])) =
    some ([], [⟨.ok, [0x3CA0000000000000]⟩]) := by decide
/-- Section 2.4. -/
theorem test_cvtb : seen (exec (.cvtb 0x1800) (block [])) =
    some ([], [⟨.ok, [0x3CB0000000000000]⟩]) := by decide
/-- Section 2.4: the largest result. -/
theorem test_cvtb_largest : seen (exec (.cvtb 0xFFFFFFFFFFFFFFFF) (block [])) =
    some ([], [⟨.ok, [0x3FEFFFFFFFFFFFFE]⟩]) := by decide
/-- P3: the first NEXTD_M. -/
theorem test_nextdM : (seen (exec (.nextdM 0) (block [ctx .xoshiro128pp ⟨1, 2, 3, 4, 0, 0⟩]))).map
    (·.2) = some [⟨.ok, [0x3E840800C0000000]⟩] := by decide
/-- S7: NEXTD_B on xorshift32 from 1. -/
theorem test_nextdB : seen (exec (.nextdB 0) (block [ctx .xorshift32 (one 1)])) =
    some ([ctx .xorshift32 (one 0x04080601)], [⟨.ok, [0x3F10808410200000]⟩]) := by decide
/-- P2: RDST after the first feed. -/
theorem test_rdst : (seen (exec (.rdst 0)
    (block [{ ctx .xorshift64 (one 0xC3C2FFE14F) with half := true, cache := 0xC2FFE14F }]))).map
    (·.2) = some [⟨.ok, [0x31, 0xC3C2FFE14F, 0, 0, 0, 0, 0, 0xC2FFE14F]⟩] := by decide
/-- Section 2.7: RDST of an unseeded context. -/
theorem test_rdst_unseeded : (seen (exec (.rdst 0) (block [Context.reset]))).map (·.2) =
    some [⟨.ok, [0, 0, 0, 0, 0, 0, 0, 0]⟩] := by decide
/-- R78: the header words of an OK answer with one result and of an INVALID_RANGE. -/
theorem test_response_words :
    Response.words ⟨.ok, [0x42021]⟩ = [0x0000100000000000, 0x42021] ∧
      Response.words ⟨.invalidRange, []⟩ = [0x0200000000000000] := by decide

/-! ### The statuses of section 2.7 -/

theorem test_status_seed_bad_context :
    statusAfter vectors [0x0140100000000000, 1] = some .badContext := by decide
theorem test_status_encoding_before_context :
    statusAfter vectors [0x01F9100000000000, 1] = some .illegalCommand := by decide
theorem test_status_seed_arity :
    statusAfter vectors [0x0112300000000000, 1, 2, 3] = some .precondition := by decide
theorem test_status_seed_width :
    statusAfter vectors [0x0110100000000000, 0x100000001] = some .precondition := by decide
theorem test_status_seed_counter_width :
    statusAfter vectors [0x0118600000000000, 1, 0, 0, 0, 0, 0x100000000] =
      some .precondition := by decide
theorem test_status_splitmix_zero_seed :
    statusAfter vectors [0x0117100000000000, 0] = some .ok := by decide
theorem test_status_not_seeded_before_range :
    statusAfter vectors [0x0410000000000000] = some .notSeeded := by decide
theorem test_status_mismatch_before_range :
    statusAfter vectors [0x0400000000000000] = some .algMismatch := by decide
theorem test_status_invalid_range :
    statusAfter vectors [0x0520000000000000] = some .invalidRange := by decide
theorem test_status_nextd_on_narrow_context :
    statusAfter vectors [0x0900000000000000] = some .ok := by decide

/-! ### Generators not stepped above (section 2.2) -/

theorem test_xorshift128_all_ones :
    (transition .xorshift128 ⟨0xFFFFFFFF, 0xFFFFFFFF, 0xFFFFFFFF, 0xFFFFFFFF, 0, 0⟩).1 =
      ⟨0xFFFFE7F8, 0xFFFFFFFF, 0xFFFFFFFF, 0xFFFFFFFF, 0, 0⟩ := by decide
theorem test_xorshift128p_second_sample :
    (transition .xorshift128p ⟨2, 0x800023, 0, 0, 0, 0⟩).2 = 0x800025 := by decide
theorem test_xoshiro256pp_second_sample :
    (transition .xoshiro256pp ⟨7, 0, 0x40002, 0xC00000000000, 0, 0⟩).2 = 0x3800067 := by decide
/-- The candidate set of R136, from `x = 0xFFFFFFFF`. -/
theorem test_splitmix32_candidate :
    splitmix32 ⟨0x4F1BBCDC, 15, 0x42F5E535, 12, 0x6159571A, 15⟩ (one 0xFFFFFFFF) =
      (one 0x9E3779B8, 0x36DEB503) := by decide
/-- Section 2.5. -/
theorem test_thresholds :
    ([3, 5, 7, 10, 1000, 0x7FFFFFFF, 0x80000001, 0xAAAAAAAB, 0xFFFFFFFE, 0xFFFFFFFF].map thresholdDa) =
      [1, 1, 4, 6, 296, 2, 0x7FFFFFFF, 0x55555555, 2, 1] := by decide

/-! ### The step -/

/-- A word is taken from the port into INBUF, and with none there the block waits. -/
theorem test_step_receives :
    step ((block []).hostSend [7]) = .next { block [] with inbuf := [7] } ∧
      step (block []) = .next (block []) := ⟨rfl, rfl⟩
/-- R300: reset inside a rejection loop empties the contexts and answers nothing. -/
theorem test_step_resets_a_loop :
    (seen (step ((block [ctx .xorshift64 (one 1)]).setPhase (.loop 0 3 1 0 .df)).hostReset)) =
      some ([Context.reset], []) := by decide
/-- The host's placing: from reset the very next step executes the command. -/
theorem test_withFetchWord_runs_next :
    step (State.reset.withFetchWord 64 0x0200000000000000) = exec (.next 0) State.reset := rfl
/-- R20: `NCTX` is at least 1, so context 0 exists whatever `NCTX` is. -/
theorem test_context_zero_exists : State.reset.ctx? 0 = some Context.reset := rfl

/-! ### Witnesses: for each statement with hypotheses, values that meet them together -/

/-- A block inside the rejection loop: seed 1 and range 0x80000001 after the first draw (R238). -/
def looping : State :=
  { block [{ ctx .xorshift64 (one 0x40822041) with half := true, cache := 0x40822041 }] with
    phase := .loop 0 0x80000001 0x7FFFFFFF 0 .da }

/-- A block inside the loop whose next draw is rejected too: an all-zero cached half. -/
def loopingOn : State :=
  { block [{ ctx .xorshift64 (one 0x40822041) with half := true, cache := 0 }] with
    phase := .loop 0 0x80000001 0x7FFFFFFF 0 .df }

/-- The outcome of a step is a next state that `p` holds of. -/
def nextMeets (o : Host.Outcome State Fault Refusal) (p : State → Bool) : Bool :=
  match o with
  | .next t => p t
  | .fault _ => false
  | .refused _ => false

theorem witness_DecodeInvertsEncode :
    (Instr.seed 15 .xorwow (List.replicate 15 0xFFFFFFFFFFFFFFFF)).WellFormed ∧
      (Instr.seed 0 .xorshift32 []).WellFormed ∧ (Instr.bdrawDf 15 0xFFFFFFFF).WellFormed := by decide
theorem witness_DecodedCommandReencodes :
    decode [0x0700100000000000, 5, 9] = .command (.cvtb 5) [9] := by decide
theorem witness_HeaderDecodesByMatchAndMask_row :
    (nwOf 0x0118600000000000).toNat ≤ [1, 2, 3, 4, 5, (6 : Word)].length ∧
      (0x0118600000000000 : Word) &&& 0xFF000FFFFFFFFFFF = 0x0100000000000000 ∧
      (algOf 0x0118600000000000).toNat ≤ 8 ∧ ¬ (algOf 0x0119600000000000).toNat ≤ 8 := by decide
theorem witness_HeaderDecodesByMatchAndMask_none :
    ∀ r ∈ opTable, (0x0B00000000000000 : Word) &&& r.maskBits ≠ r.matchBits := by decide
theorem witness_CommandLengthIsOnePlusPayloadCount :
    [(7 : Word)].length < (nwOf 0x0B00200000000000).toNat ∧
      (nwOf 0x0B00200000000000).toNat ≤ [(7 : Word), 8].length ∧
      (nwOf 0x0200000000000000).toNat ≤ ([] : List Word).length := by decide
theorem witness_IllegalCommandIsAnsweredAndConsumed_state :
    (given (block []) [0xFF00100000000000, 7]).resetIn = false ∧
      (given (block []) [0xFF00100000000000, 7]).phase = .idle ∧
      [(7 : Word)].length = (nwOf 0xFF00100000000000).toNat := by decide
/-- A header for each condition of R80, and for the ends of its ranges. -/
theorem witness_IllegalCommandIsAnsweredAndConsumed_headers :
    ∀ h ∈ ([0x0000000000000000, 0x0B00000000000000, 0xFF00100000000000, 0x0200000100000000,
        0x0201000000000000, 0x0109000000000000, 0x010F000000000000, 0x0200000000000001,
        0x0600000000000000, 0x0700200000000000, 0x0200100000000000, 0x0610100000000000] : List Word),
      Sys2Proof.Claims.IllegalHeader h := by
  unfold Sys2Proof.Claims.IllegalHeader
  simp only [List.forall_mem_cons, List.not_mem_nil, false_imp_iff, implies_true, and_true]
  refine ⟨?_, ?_, ?_, ?_, ?_, ?_, ?_, ?_, ?_, ?_, ?_, ?_⟩ <;> decide
theorem witness_IllegalCommandIsAnsweredAndConsumed_legal :
    ∀ h ∈ ([0x01F8F00000000000, 0x02F0000000000000, 0x04F00000FFFFFFFF, 0x0600100000000000,
        0x0AF0000000000000] : List Word), ¬ Sys2Proof.Claims.IllegalHeader h := by
  unfold Sys2Proof.Claims.IllegalHeader
  simp only [List.forall_mem_cons, List.not_mem_nil, false_imp_iff, implies_true, and_true]
  refine ⟨?_, ?_, ?_, ?_, ?_⟩ <;> decide
theorem witness_StepRunsTheDecodedCommand :
    (given vectors [0x0200000000000000]).resetIn = false ∧
      (given vectors [0x0200000000000000]).phase = .idle ∧
      decode (given vectors [0x0200000000000000]).inbuf = .command (.next 0) [] := by decide
theorem witness_PartialCommandWaitsForItsWords :
    (block []).resetIn = false ∧ (block []).phase = .idle ∧
      decode (given (block []) [0x0600100000000000]).inbuf = .incomplete ∧
      decode (block []).inbuf = .incomplete ∧ (block []).port = [] ∧
      ((block []).hostSend [1]).port = 1 :: [] := by decide
theorem witness_CommandInThePortIsReceivedAndExecuted :
    let s := (block []).hostSend [0x0111100000000000, 0x309, 0x0210000000000000]
    (Instr.seed 1 .xorshift64 [777]).WellFormed ∧ s.resetIn = false ∧ s.phase = .idle ∧
      s.inbuf = [] ∧ s.port = encode (.seed 1 .xorshift64 [777]) ++ [0x0210000000000000] := by decide
theorem witness_OneResponseWhenACommandEnds :
    nextMeets (step (given vectors [0x0200000000000000])) (fun t => t.responses.length == 1) = true ∧
      nextMeets (step (block [])) (fun t => t.responses.length == 0) = true ∧
      nextMeets (step loopingOn) (fun t => t.responses.length == 0) = true := by decide
theorem witness_RejectionLoopHoldsThePort :
    looping.resetIn = false ∧ loopingOn.resetIn = false ∧
      nextMeets (step looping) (fun t => t.phase == .idle) = true ∧
      nextMeets (step loopingOn) (fun t => t.phase == .loop 0 0x80000001 0x7FFFFFFF 0 .df) = true := by
  decide
theorem witness_ResetEventResetsFromAnyState : looping.hostReset.resetIn = true := rfl
theorem witness_CommandsRightAfterReset :
    (0 : Nibble).toNat < Config.nctx ∧ seedLegal .xorwow [0, 0, 0, 1, 0, 0] = true :=
  ⟨Nat.succ_pos _, by decide⟩
theorem witness_FailedCommandWritesNothing :
    let s := given vectors [0x0410000000000000]
    s.resetIn = false ∧ s.phase = .idle ∧
      nextMeets (step s) (fun t => t.responses == s.responses ++ [⟨.notSeeded, []⟩]) = true := by decide
/-- Every status of R272 is some command's, and each line that can refuse does. -/
theorem witness_ChecksAreMadeInOrder :
    [ Sys2Proof.Claims.checkedStatus 0x0B00000000000000 [] vectors.ctxs,
      Sys2Proof.Claims.checkedStatus 0x0200000100000000 [] vectors.ctxs,
      Sys2Proof.Claims.checkedStatus 0x0201000000000000 [] vectors.ctxs,
      Sys2Proof.Claims.checkedStatus 0x0200000000000001 [] vectors.ctxs,
      Sys2Proof.Claims.checkedStatus 0x0200100000000000 [0] vectors.ctxs,
      Sys2Proof.Claims.checkedStatus 0x0109000000000000 [] vectors.ctxs,
      Sys2Proof.Claims.checkedStatus 0x0610100000000000 [0] vectors.ctxs,
      Sys2Proof.Claims.checkedStatus 0x0240000000000000 [] vectors.ctxs,
      Sys2Proof.Claims.checkedStatus 0x0100100000000000 [0] vectors.ctxs,
      Sys2Proof.Claims.checkedStatus 0x0410000000000000 [] vectors.ctxs,
      Sys2Proof.Claims.checkedStatus 0x0400000000000000 [] vectors.ctxs,
      Sys2Proof.Claims.checkedStatus 0x0420000000000000 [] vectors.ctxs,
      Sys2Proof.Claims.checkedStatus 0x0420000000000001 [] vectors.ctxs,
      Sys2Proof.Claims.checkedStatus 0x0230000000000000 [] vectors.ctxs,
      Sys2Proof.Claims.checkedStatus 0x0A10000000000000 [] vectors.ctxs,
      Sys2Proof.Claims.checkedStatus 0x0117100000000000 [0] vectors.ctxs ] =
    [ .illegalCommand, .illegalCommand, .illegalCommand, .illegalCommand, .illegalCommand,
      .illegalCommand, .illegalCommand, .badContext, .precondition, .notSeeded, .algMismatch,
      .invalidRange, .ok, .ok, .ok, .ok ] := by decide
theorem witness_ChecksAreMadeInOrder_state :
    (given vectors [0x0100100000000000, 0]).resetIn = false ∧
      (given vectors [0x0100100000000000, 0]).phase = .idle ∧
      [(0 : Word)].length = (nwOf 0x0100100000000000).toNat := by decide
theorem witness_ResponseHeaderLayout :
    (Response.mk .ok (List.replicate 15 0)).results.length ≤ 15 ∧
      (Response.mk .badContext []).results.length ≤ 15 := by decide
theorem witness_EveryStepKeepsTheInvariant_reset : (State.resetWith 1).Inv where
  count := by decide
  contexts x hx := by
    obtain rfl : x = Context.reset := by simpa [State.resetWith] using hx
    exact {
      unused := fun i _ => by rcases Words.slot_cases i with rfl | rfl | rfl | rfl | rfl | rfl | h <;>
        first | rfl | exact Words.get_of_ge _ h
      narrow := fun _ i => by rcases Words.slot_cases i with rfl | rfl | rfl | rfl | rfl | rfl | h <;>
        first | decide | simp [Words.get_of_ge _ h]
      unseeded := fun _ => rfl
      empty := fun _ => rfl
      cached := fun h => by simp [Context.reset] at h }
  inbuf h ps e := by simp [State.resetWith] at e
  looping c range t m v e := by simp [State.resetWith] at e
  responses r hr := by simp [State.resetWith] at hr
/-- The invariant is met inside a rejection loop, with a half-cached feeder. -/
theorem witness_EveryStepKeepsTheInvariant_loop : looping.Inv where
  count := by decide
  contexts x hx := by
    obtain rfl : x = { ctx .xorshift64 (one 0x40822041) with half := true, cache := 0x40822041 } := by
      simpa [looping, block] using hx
    exact {
      unused := fun i hi => by
        rcases Words.slot_cases i with rfl | rfl | rfl | rfl | rfl | rfl | h
        · simp [arity, ctx] at hi
        all_goals first | rfl | exact Words.get_of_ge _ h
      narrow := fun h => by simp [width, ctx] at h
      unseeded := fun h => by simp [ctx] at h
      empty := fun h => by simp at h
      cached := fun _ => rfl }
  inbuf h ps e := by simp [looping, block, State.resetWith] at e
  looping c range t m v e := by
    obtain ⟨rfl, rfl, rfl, rfl, rfl⟩ := Phase.loop.inj e
    exact ⟨rfl, by decide, by decide, by decide, ⟨0, by decide⟩, _, rfl, by decide⟩
  responses r hr := by simp [looping, block, State.resetWith] at hr
theorem witness_EveryStepKeepsGeneratorsNonDegenerate :
    (∀ x ∈ vectors.ctxs, x.valid = true → isZeroState x.alg x.w = false) ∧
      nextMeets (step (given vectors [0x0200000000000000])) (fun _ => true) = true := by decide
theorem witness_OnlySeedAndResetWriteValid :
    let s := given vectors [0x0117100000000000, 0]
    s.ctxs[1]? = some Context.reset ∧
      nextMeets (step s) (fun t => t.ctxs[1]? == some (ctx .splitmix64 (one 0))) = true ∧
      nextMeets (step vectors.hostReset) (fun t => t.ctxs[0]? == some Context.reset) = true ∧
      vectors.ctxs[0]? = some (ctx .xorshift32 (one 1)) := by decide
/-- The feeder of context 0 changes by a reset, a loop step, a SEED and a FEED32. -/
theorem witness_OnlyFeedsSeedAndResetWriteTheFeeder :
    let s := { looping with phase := .idle }
    (looping.ctxs[0]?.map (·.half)) = some true ∧
      nextMeets (step looping.hostReset) (fun t => t.ctxs[0]?.map (·.half) == some false) = true ∧
      nextMeets (step looping) (fun t => t.ctxs[0]?.map (·.half) == some false) = true ∧
      nextMeets (step (given s [0x0101100000000000, 5]))
        (fun t => t.ctxs[0]?.map (·.half) == some false) = true ∧
      nextMeets (step (given s [0x0300000000000000]))
        (fun t => t.ctxs[0]?.map (·.half) == some false) = true := by decide
theorem witness_OtherContextsAreUnchanged :
    nextMeets (exec (.next 0) vectors) (fun _ => true) = true ∧ namedContext (.next 0) = some 0 ∧
      (2 : Nat) ≠ (0 : Nibble).toNat ∧
      nextMeets (bdrawLoop .da 0 0x80000001 0x7FFFFFFF looping) (fun _ => true) = true := by decide
/-- Two states that agree on context 0 and on nothing else, and a command and a loop step in each. -/
theorem witness_CommandDependsOnlyOnItsContext :
    let x := { ctx .xorshift64 (one 0x40822041) with half := true, cache := 0x40822041 }
    let s := { block [x, Context.reset] with port := [7], responses := [⟨.ok, [1]⟩] }
    s.ctx? 0 = looping.ctx? 0 ∧ s ≠ looping ∧
      nextMeets (exec (.next 0) s) (fun _ => true) = true ∧
      nextMeets (exec (.next 0) looping) (fun _ => true) = true ∧
      nextMeets (bdrawLoop .df 0 3 1 s) (fun _ => true) = true ∧
      nextMeets (bdrawLoop .df 0 3 1 looping) (fun _ => true) = true := by decide
theorem witness_PrimitivesComputeModularIntegers :
    (1 : U32) ≠ 0 ∧ (0xFFFFFFFF : U32) ≠ 0 ∧ 0 < 32 ∧ 63 < 64 ∧ 32 ≤ 32 ∧ 64 ≤ 65 := by decide
theorem witness_RotationMovesBitsAround :
    (1 ≤ 1 ∧ 1 ≤ 32 - 1) ∧ (1 ≤ 63 ∧ 63 ≤ 64 - 1) ∧ 0 < 32 ∧ 63 < 64 := by decide
/-- The last: a xorwow state whose only nonzero word is `x[4]` is not the zero state. -/
theorem witness_AdvanceNeverEntersTheZeroState :
    isZeroState .xorshift32 (one 1) = false ∧ isZeroState .xorshift64 (one 1) = false ∧
      isZeroState .xorshift128 ⟨0, 0, 0, 1, 0, 0⟩ = false ∧
      isZeroState .xorshift128p ⟨0, 1, 0, 0, 0, 0⟩ = false ∧
      isZeroState .xoshiro128pp ⟨0, 0, 0, 1, 0, 0⟩ = false ∧
      isZeroState .xoshiro256pp ⟨0, 0, 0, 1, 0, 0⟩ = false ∧
      isZeroState .xorwow ⟨0, 0, 0, 0, 1, 0⟩ = false := by decide
/-- A legal seed of each algorithm, at the edge of its precondition. -/
theorem witness_SeedWritesTheContext :
    (3 : Nibble).toNat < vectors.ctxs.length ∧
      Sys2Proof.Claims.SeedIsLegal .xorshift32 [0xFFFFFFFF] ∧
      Sys2Proof.Claims.SeedIsLegal .xorshift64 [0x8000000000000000] ∧
      Sys2Proof.Claims.SeedIsLegal .xorshift128 [0, 0, 0, 1] ∧
      Sys2Proof.Claims.SeedIsLegal .xorshift128p [0, 1] ∧
      Sys2Proof.Claims.SeedIsLegal .xoshiro128pp [0, 0, 0, 1] ∧
      Sys2Proof.Claims.SeedIsLegal .xoshiro256pp [0, 0, 0, 1] ∧
      Sys2Proof.Claims.SeedIsLegal .splitmix32 [0] ∧
      Sys2Proof.Claims.SeedIsLegal .splitmix64 [0] ∧
      Sys2Proof.Claims.SeedIsLegal .xorwow [0, 0, 0, 1, 0, 0] := by
  simp only [Sys2Proof.Claims.SeedIsLegal, Sys2Proof.Claims.SeedIsAccepted]
  refine ⟨?_, ?_, ?_, ?_, ?_, ?_, ?_, ?_, ?_, ?_⟩ <;> simp [arity, width, vectors, block]
/-- An illegal seed for each of the three reasons. -/
theorem witness_SeedRefusesAnIllegalSeed :
    ¬ Sys2Proof.Claims.SeedIsLegal .xorshift128p [1] ∧
      ¬ Sys2Proof.Claims.SeedIsLegal .xorshift32 [0x100000000] ∧
      ¬ Sys2Proof.Claims.SeedIsLegal .xorwow [0, 0, 0, 0, 1, 5] := by
  simp only [Sys2Proof.Claims.SeedIsLegal, Sys2Proof.Claims.SeedIsAccepted]
  refine ⟨?_, ?_, ?_⟩ <;> simp [arity, width]
/-- A seeded context of 32 and one of 64 bits; it also serves
DrawAndConvertCommandsAnswer, whose own witness has a half-cached feeder. -/
theorem witness_NextAnswersTheSample :
    vectors.ctx? 0 = some (ctx .xorshift32 (one 1)) ∧ (ctx .xorshift32 (one 1)).valid = true ∧
      vectors.ctx? 2 = some (ctx .xorshift64 (one 1)) ∧ (ctx .xorshift64 (one 1)).valid = true := by
  decide
theorem witness_RdstAnswersTheContext : vectors.ctx? 1 = some Context.reset := rfl
/-- The ends of the ranges in the corner cases of MultiplicativeConversionIsExact (R202) and
BitConstructionConversionIsExact (R203). -/
theorem witness_ConversionsAreExact :
    (0x7FF : Word).toNat < 0x800 ∧ (0x800 ≤ (0x800 : Word).toNat ∧ (0xFFF : Word).toNat ≤ 0xFFF) ∧
      0xFFFFFFFFFFFFF800 ≤ (0xFFFFFFFFFFFFF800 : Word).toNat ∧ (0xFFF : Word).toNat < 0x1000 ∧
      (0x1000 ≤ (0x1000 : Word).toNat ∧ (0x1FFF : Word).toNat ≤ 0x1FFF) ∧
      0xFFFFFFFFFFFFF000 ≤ (0xFFFFFFFFFFFFF000 : Word).toNat := by decide
theorem witness_Draw64ConcatenatesTwoNarrowSamples :
    width (ctx .xorshift64 (one 1)).alg = 64 ∧ width (ctx .xorwow (one 1)).alg = 32 := by decide
theorem witness_DrawAndConvertCommandsAnswer :
    looping.ctx? 0 = some { ctx .xorshift64 (one 0x40822041) with half := true, cache := 0x40822041 } :=
  rfl
theorem witness_FeedSplitsASampleHighHalfFirst :
    (ctx .xorshift64 (one 1)).half = false ∧
      { ctx .xorshift64 (one 1) with half := true, cache := 7 }.half = true := by decide
/-- A context that can be fed; it also serves RangeZeroIsRefusedBeforeAnyFeed and
RangeOneGivesZeroAfterOneFeed. -/
theorem witness_Feed32AnswersOneFeed :
    vectors.ctx? 3 = some (ctx .xoshiro256pp ⟨1, 2, 3, 4, 0, 0⟩) ∧
      (ctx .xoshiro256pp ⟨1, 2, 3, 4, 0, 0⟩).valid = true ∧
      width (ctx .xoshiro256pp ⟨1, 2, 3, 4, 0, 0⟩).alg = 64 := by decide
/-- It also serves TheTwoThresholdsAreEqual. -/
theorem witness_ThresholdIsTheResidueOfTheNegation :
    (1 : U32) ≠ 0 ∧ (0x80000001 : U32) ≠ 0 ∧ (0xFFFFFFFF : U32) ≠ 0 := by decide
/-- An answer of a first step and one of a loop step. -/
theorem witness_BoundedDrawIsBelowItsRange :
    nextMeets (exec (.bdrawDf 2 1) vectors)
        (fun t => t.responses == vectors.responses ++ [⟨.ok, [0]⟩]) = true ∧
      looping.resetIn = false ∧ (0x80000001 : U32) ≠ 0 ∧
      nextMeets (step looping)
        (fun t => t.responses == looping.responses ++ [⟨.ok, [0x20411020]⟩]) = true := by decide
/-- Seed 8 accepts its draw 0, and seed 1 rejects its draw 0 and accepts its draw 1. -/
theorem witness_BoundedDrawAnswersItsFirstAcceptedDraw :
    vectors.resetIn = false ∧ vectors.ctx? 2 = some (ctx .xorshift64 (one 1)) ∧
      thresholdDf 0xAAAAAAAB ≤ lo32 ((ctx .xorshift64 (one 8)).productAt 0xAAAAAAAB 0) ∧
      (∀ k, k < 1 → lo32 ((ctx .xorshift64 (one 1)).productAt 0x80000001 k) < thresholdDf 0x80000001) ∧
      thresholdDf 0x80000001 ≤ lo32 ((ctx .xorshift64 (one 1)).productAt 0x80000001 1) := by decide
theorem witness_BoundedDrawLoopsWhileItsDrawsAreRejected :
    ∀ k, k ≤ 0 → lo32 ((ctx .xorshift64 (one 1)).productAt 0x80000001 k) < thresholdDf 0x80000001 := by
  decide
theorem witness_TheTwoVariantsRunAlike :
    nextMeets (exec (.bdrawDf 2 0x80000001) vectors) (fun t => t.phase != .idle) = true ∧
      nextMeets (exec (.bdrawDa 2 0x80000001) vectors) (fun t => t.phase != .idle) = true := by decide

/-- A run of one NEXT on one xorshift32 context, over after two steps. -/
def nextRun : Run := ⟨block [ctx .xorshift32 (one 1)], [[0x0200000000000000]]⟩

/-- A run of one bounded draw on a context that holds the zero fixed point: every draw is 0 and the
range 3 rejects it, so the run hangs (R304). -/
def hangingRun : Run := ⟨block [ctx .xorshift64 (one 0)], [[0x0400000000000003]]⟩

/-- The states the hanging run alternates between. -/
def hanging (half : Bool) : State :=
  { block [{ ctx .xorshift64 (one 0) with half := half }] with phase := .loop 0 3 1 0 .df }

theorem hangingRun_enters : hangingRun.after 2 = .next (hanging true) := by rfl
theorem hanging_step (b : Bool) : step (hanging b) = .next (hanging !b) := by cases b <;> rfl

theorem hanging_run (n : Nat) (b : Bool) : ∃ b', stepsFrom n (hanging b) = .next (hanging b') := by
  induction n generalizing b with
  | zero => exact ⟨b, rfl⟩
  | succ n ih => rw [stepsFrom_succ_of_step (hanging_step b)]; exact ih _

theorem witness_RunIsOverForGoodOrNever_over :
    nextRun.observation 2 = some ⟨[⟨.ok, [0x42021]⟩], [ctx .xorshift32 (one 0x42021)]⟩ := by decide
/-- A launch at reset, no command before, and a CVTM whose payload word never comes. -/
theorem witness_RunIsOverForGoodOrNever_incomplete :
    (Run.mk (State.resetWith 1) []).WellFormed ∧ (Run.mk looping []).WellFormed ∧
      [(0x0600100000000000 : Word)] ≠ [] ∧ decode [0x0600100000000000] = .incomplete :=
  ⟨⟨by decide, by simp⟩, ⟨by decide, by simp⟩, by decide, by decide⟩
/-- A launch with a CVTM header in INBUF and its payload word nowhere; with the word in the port it
owes one response. -/
theorem witness_RunIsOverForGoodOrNever_partial :
    (given (block []) [0x0600100000000000]).owed = none ∧
      ((given (block []) [0x0600100000000000]).hostSend [7]).owed = some 1 := by decide
theorem witness_RunIsOverForGoodOrNever_hangs : ∀ n, 2 ≤ n →
    ∃ t c range th m v, hangingRun.after n = .next t ∧ t.phase = .loop c range th m v := by
  intro n hn
  obtain ⟨k, rfl⟩ : ∃ k, n = 2 + k := ⟨n - 2, by omega⟩
  obtain ⟨b, hb⟩ := hanging_run k true
  exact ⟨hanging b, 0, 3, 1, 0, .df, (stepsFrom_add hangingRun_enters k).trans hb, rfl⟩
theorem witness_RunOfCompleteCommandsEndsOrHangs_launch :
    (Run.mk (State.resetWith 1) [[0x0600100000000000, 7], [0x0B00000000000000]]).WellFormed ∧
      (State.resetWith 1).Inv ∧ (State.resetWith 1).owed = some 0 :=
  ⟨⟨by decide, by decide⟩, witness_EveryStepKeepsTheInvariant_reset, by decide⟩
/-- A launch inside a rejection loop, which owes the draw's response. -/
theorem witness_RunOfCompleteCommandsEndsOrHangs_loop :
    (Run.mk looping [[0x0200000000000000]]).WellFormed ∧ looping.Inv ∧ looping.owed = some 1 :=
  ⟨⟨by decide, by decide⟩, witness_EveryStepKeepsTheInvariant_loop, by decide⟩
/-- R310, R238: a run launched inside the loop is over once the draw has answered. -/
theorem test_run_launched_in_a_loop :
    (Run.mk looping []).observation 1 =
      some ⟨[⟨.ok, [0x20411020]⟩], [ctx .xorshift64 (one 0x40822041)]⟩ := by decide
theorem witness_RunOfCompleteCommandsEndsOrHangs_first :
    (∀ m, m < 2 → nextRun.observation m = none) ∧ (nextRun.observation 2).isSome = true ∧
      nextMeets (nextRun.after 2) nextRun.isOver = true := by decide
theorem witness_RunOfCompleteCommandsEndsOrHangs_send :
    nextMeets (step ((block []).hostSend [7])) (fun _ => true) = true ∧
      ((block []).hostSend [7]).port ≠ [] ∧ vectors.hostReset.resetIn = true ∧
      looping.phase ≠ .idle ∧ decode [0x0200000000000000] ≠ .incomplete := by decide

end Sys2Proof.Tests
end

section
/-!
PROOF of O24: two runs of one command side by side (R4, R20, R279).  `AgreeOn` is the relation
between the two states before, `SameEffect` the relation between what they become.  The checks, and
so the context they hand on, are functions of the named context; what is written over that context
is the same write in both states.
-/

namespace Sys2Proof.Machine

/-- Two states hold the same context where the command names one. -/
def AgreeOn (named : Option Nibble) (s₁ s₂ : State) : Prop :=
  ∀ c, named = some c → s₁.ctx? c = s₂.ctx? c

/-- `s₁` becomes `t₁` and `s₂` becomes `t₂` with the same named context, phase and answer. -/
def SameEffect (named : Option Nibble) (s₁ s₂ t₁ t₂ : State) : Prop :=
  AgreeOn named t₁ t₂ ∧ t₁.phase = t₂.phase ∧
    ∃ rs, t₁.responses = s₁.responses ++ rs ∧ t₂.responses = s₂.responses ++ rs

/-! ### The checks read the named context alone -/

section Checks

variable {s₁ s₂ : State} {c : Nibble}

theorem State.checkContext_congr (h : s₁.ctx? c = s₂.ctx? c) :
    s₁.checkContext c = s₂.checkContext c := by
  simp only [State.checkContext, h]

theorem State.checkSeeded_congr (h : s₁.ctx? c = s₂.ctx? c) :
    s₁.checkSeeded c = s₂.checkSeeded c := by
  simp only [State.checkSeeded, State.checkContext_congr h]

theorem State.checkFeedable_congr (h : s₁.ctx? c = s₂.ctx? c) :
    s₁.checkFeedable c = s₂.checkFeedable c := by
  simp only [State.checkFeedable, State.checkSeeded_congr h]

theorem State.checkRange_congr (h : s₁.ctx? c = s₂.ctx? c) (range : U32) :
    s₁.checkRange c range = s₂.checkRange c range := by
  simp only [State.checkRange, State.checkFeedable_congr h]

end Checks

/-! ### The shared ends of a command -/

/-- Where `C[c]` exists the write is read back; where it does not, nothing is written. -/
theorem State.ctx?_setCtx_self (s : State) (c : Nibble) (x : Context) :
    (s.setCtx c x).ctx? c = (s.ctx? c).map fun _ => x :=
  List.getElem?_set_self'

section TwoStates

variable {named : Option Nibble} {c : Nibble} {s₁ s₂ : State}

/-- The same write over the named context keeps the agreement. -/
theorem AgreeOn.setCtx (h : AgreeOn (some c) s₁ s₂) (x : Context) :
    AgreeOn (some c) (s₁.setCtx c x) (s₂.setCtx c x) := by
  rintro _ ⟨⟩
  rw [State.ctx?_setCtx_self, State.ctx?_setCtx_self, h c rfl]

theorem SameEffect.finish (h : AgreeOn named s₁ s₂) (st : Status) (ws : List Word) :
    SameEffect named s₁ s₂ (s₁.finish st ws) (s₂.finish st ws) :=
  ⟨h, rfl, _, rfl, rfl⟩

theorem SameEffect.setCtx_finish (h : AgreeOn (some c) s₁ s₂) (x : Context) (st : Status)
    (ws : List Word) :
    SameEffect (some c) s₁ s₂ ((s₁.setCtx c x).finish st ws) ((s₂.setCtx c x).finish st ws) :=
  ⟨h.setCtx x, rfl, _, rfl, rfl⟩

theorem SameEffect.setCtx_setPhase (h : AgreeOn (some c) s₁ s₂) (x : Context) (p : Phase) :
    SameEffect (some c) s₁ s₂ ((s₁.setCtx c x).setPhase p) ((s₂.setCtx c x).setPhase p) :=
  ⟨h.setCtx x, rfl, [], (List.append_nil _).symm, (List.append_nil _).symm⟩

/-- Both states take the same branch of a test on the command and its context. -/
theorem SameEffect.ite {p : Prop} [Decidable p] {t₁ t₂ u₁ u₂ : State}
    (ht : SameEffect named s₁ s₂ t₁ t₂) (hu : SameEffect named s₁ s₂ u₁ u₂) :
    SameEffect named s₁ s₂ (if p then t₁ else u₁) (if p then t₂ else u₂) := by
  split
  · exact ht
  · exact hu

/-- Both states pass the same check with the same context, or fail it with the same status. -/
theorem SameEffect.check {k₁ k₂ : Except Status Context} {f₁ f₂ : Context → State}
    (h : AgreeOn named s₁ s₂) (hok : ∀ x, SameEffect named s₁ s₂ (f₁ x) (f₂ x)) :
    k₁ = k₂ → SameEffect named s₁ s₂ (match k₁ with | .error e => s₁.fail e | .ok x => f₁ x)
      (match k₂ with | .error e => s₂.fail e | .ok x => f₂ x) := by
  rintro rfl
  cases k₁ with
  | error e => exact .finish h e []
  | ok x => exact hok x

/-! ### Draws -/

theorem bdrawRedraw_sameEffect (h : AgreeOn (some c) s₁ s₂) (v : Variant) (range t : U32)
    (x : Context) :
    SameEffect (some c) s₁ s₂ (bdrawRedraw v c range t x s₁) (bdrawRedraw v c range t x s₂) :=
  .ite (.setCtx_finish h _ _ _) (.setCtx_setPhase h _ _)

theorem bdrawFirst_sameEffect (h : AgreeOn (some c) s₁ s₂) (v : Variant) (range : U32)
    (x : Context) :
    SameEffect (some c) s₁ s₂ (bdrawFirst v c range x s₁) (bdrawFirst v c range x s₂) := by
  rw [bdrawFirst_eq, bdrawFirst_eq]
  exact .ite (.setCtx_finish h _ _ _) (bdrawRedraw_sameEffect h v range _ x)

theorem bdraw_sameEffect (h : AgreeOn (some c) s₁ s₂) (v : Variant) (range : U32) :
    SameEffect (some c) s₁ s₂ (bdraw v c range s₁) (bdraw v c range s₂) :=
  .check h (fun x => bdrawFirst_sameEffect h v range x) (State.checkRange_congr (h c rfl) range)

theorem drawConverted_sameEffect (h : AgreeOn (some c) s₁ s₂) (conv : Word → Word) :
    SameEffect (some c) s₁ s₂ (drawConverted conv c s₁) (drawConverted conv c s₂) :=
  .check h (fun _ => .setCtx_finish h _ _ _) (State.checkSeeded_congr (h c rfl))

end TwoStates

/-! ### Commands and loop steps -/

/-- From two states that agree on the context it names, a command answers with the same effect. -/
theorem exec_sameEffect {i : Instr} {s₁ s₂ : State} (h : AgreeOn (namedContext i) s₁ s₂) :
    ∃ t₁ t₂, exec i s₁ = .next t₁ ∧ exec i s₂ = .next t₂ ∧
      SameEffect (namedContext i) s₁ s₂ t₁ t₂ := by
  cases i with
  | seed c a p =>
    exact ⟨_, _, rfl, rfl,
      .check h (fun _ => .ite (.setCtx_finish h _ _ _) (.finish h .precondition []))
        (State.checkContext_congr (h c rfl))⟩
  | next c =>
    exact ⟨_, _, rfl, rfl,
      .check h (fun _ => .setCtx_finish h _ _ _) (State.checkSeeded_congr (h c rfl))⟩
  | feed32 c =>
    exact ⟨_, _, rfl, rfl,
      .check h (fun _ => .setCtx_finish h _ _ _) (State.checkFeedable_congr (h c rfl))⟩
  | bdrawDf c range => exact ⟨_, _, rfl, rfl, bdraw_sameEffect h .df range⟩
  | bdrawDa c range => exact ⟨_, _, rfl, rfl, bdraw_sameEffect h .da range⟩
  | cvtm x => exact ⟨_, _, rfl, rfl, .finish h .ok [convMul x]⟩
  | cvtb x => exact ⟨_, _, rfl, rfl, .finish h .ok [convBit x]⟩
  | nextdM c => exact ⟨_, _, rfl, rfl, drawConverted_sameEffect h convMul⟩
  | nextdB c => exact ⟨_, _, rfl, rfl, drawConverted_sameEffect h convBit⟩
  | rdst c =>
    exact ⟨_, _, rfl, rfl,
      .check h (fun x => .finish h .ok x.readWords) (State.checkContext_congr (h c rfl))⟩

/-- A loop step has the same effect from two states that agree on the loop's context. -/
theorem bdrawLoop_sameEffect {v : Variant} {c : Nibble} {range t : U32} {s₁ s₂ t₁ t₂ : State}
    (h : AgreeOn (some c) s₁ s₂) (h₁ : bdrawLoop v c range t s₁ = .next t₁)
    (h₂ : bdrawLoop v c range t s₂ = .next t₂) : SameEffect (some c) s₁ s₂ t₁ t₂ := by
  obtain ⟨x, hx, -, rfl⟩ := bdrawLoop_eq_next_iff.mp h₁
  obtain ⟨y, hy, -, rfl⟩ := bdrawLoop_eq_next_iff.mp h₂
  obtain rfl : x = y := Option.some.inj (hx.symm.trans ((h c rfl).trans hy))
  exact bdrawRedraw_sameEffect h v range t x

/-- Settles O24: a command and a loop step have the same effect from two states that agree on the
context named, by the cases of the command and of the loop step. -/
theorem commandDependsOnlyOnItsContext : Obligations.CommandDependsOnlyOnItsContext := by
  constructor
  · intro i s₁ s₂ t₁ t₂ h h₁ h₂
    obtain ⟨u₁, u₂, hu₁, hu₂, heffect⟩ := exec_sameEffect h
    obtain rfl := Host.Outcome.next.inj (hu₁.symm.trans h₁)
    obtain rfl := Host.Outcome.next.inj (hu₂.symm.trans h₂)
    exact heffect
  · intro v c range th s₁ s₂ t₁ t₂ h h₁ h₂
    have hagree : AgreeOn (some c) s₁ s₂ := by
      rintro _ ⟨⟩
      exact h
    obtain ⟨hctx, hphase, hresponses⟩ := bdrawLoop_sameEffect hagree h₁ h₂
    exact ⟨hctx c rfl, hphase, hresponses⟩

end Sys2Proof.Machine
end

section
/-!
PROOF of O7, O8 and O9: one equation per branch of `step`, that the decoder reads back an encoded
command, and the intake of a command word by word (R27, R28, R71, R307).
-/

namespace Sys2Proof

/-! ### The decoder on the words of a command -/

/-- A header waits exactly for the payload words it announces (R71). -/
theorem decode_cons_eq_incomplete_iff (h : Word) (ps : List Word) :
    decode (h :: ps) = .incomplete ↔ ps.length < (nwOf h).toNat := by
  constructor
  · intro hd
    by_contra hl
    simp only [decode, if_neg hl] at hd
    split at hd <;> cases hd
  · intro hl
    simp [decode, hl]

/-- The header of an instruction passes checks 1 to 7 (R83). -/
theorem rejectHeader_encodeHeader (i : Instr) : rejectHeader (encodeHeader i) = none := by
  rw [rejectHeader_eq_none_iff]
  cases i with
  | seed c a p =>
    have hcode : a.code ≤ 8 := (Alg.ofCode_isSome_iff a.code).mp (by simp)
    simpa [encodeHeader] using hcode
  | _ => simp [encodeHeader, rowPayloadCount]

/-- The row of an encoded header is the instruction's own (R74). -/
theorem readRow_encodeHeader (i : Instr) : readRow (encodeHeader i) i.payload = .ok i := by
  cases i <;> simp [readRow, encodeHeader, Instr.payload]

/-- The decoder reads back an encoded command and leaves the words after it (R70, R83). -/
theorem decode_encode_append {i : Instr} (hi : i.WellFormed) (more : List Word) :
    decode (encode i ++ more) = .command i more := by
  simp [encode, decode, decodeHeader, nwOf_encodeHeader i hi, rejectHeader_encodeHeader,
    readRow_encodeHeader]

/-- A part of an encoded command is not decoded (R71). -/
theorem decode_take_encode {i : Instr} (hi : i.WellFormed) {k : Nat} (hk : k < (encode i).length) :
    decode ((encode i).take k) = .incomplete := by
  cases k with
  | zero => rfl
  | succ k =>
    have hk : k < i.payload.length := by simpa [encode] using hk
    rw [encode, List.take_succ_cons, decode_cons_eq_incomplete_iff, nwOf_encodeHeader i hi,
      List.length_take]
    omega

end Sys2Proof

namespace Sys2Proof.Machine

/-! ### One equation per branch of the step -/

variable {s : State}

theorem step_of_reset (hr : s.resetIn = true) : step s = .next s.applyReset := by
  simp [step, hr]

theorem step_of_loop {c : Nibble} {range t : U32} {m : Word} {v : Variant}
    (hr : s.resetIn = false) (hp : s.phase = .loop c range t m v) :
    step s = bdrawLoop v c range t s := by
  simp [step, hr, hp]

theorem step_of_incomplete (hr : s.resetIn = false) (hp : s.phase = .idle)
    (hd : decode s.inbuf = .incomplete) : step s = .next s.receive := by
  simp [step, hr, hp, hd]

theorem step_of_illegal {why : Reject} {rest : List Word} (hr : s.resetIn = false)
    (hp : s.phase = .idle) (hd : decode s.inbuf = .illegal why rest) :
    step s = .next ((s.consume rest).finish .illegalCommand []) := by
  simp [step, hr, hp, hd]

theorem step_of_command {i : Instr} {rest : List Word} (hr : s.resetIn = false)
    (hp : s.phase = .idle) (hd : decode s.inbuf = .command i rest) :
    step s = exec i (s.consume rest) := by
  simp [step, hr, hp, hd]

/-! ### The intake of words -/

theorem State.receive_of_port_cons {w : Word} {ws : List Word} (h : s.port = w :: ws) :
    s.receive = { s with inbuf := s.inbuf ++ [w], port := ws } := by
  simp [State.receive, h]

theorem State.receive_of_port_nil (h : s.port = []) : s.receive = s := by
  simp [State.receive, h]

/-- A step that leaves the state as it is leaves it so for ever. -/
theorem stepsFrom_of_step_self (h : step s = .next s) (n : Nat) : stepsFrom n s = .next s := by
  induction n with
  | zero => rfl
  | succ n ih => rw [stepsFrom_succ_of_step h, ih]

/-- An idle block takes the words `ws` of the port one a step while INBUF, with those it has taken,
holds no complete command. -/
theorem stepsFrom_receive {ws more : List Word} (hr : s.resetIn = false) (hp : s.phase = .idle)
    (hport : s.port = ws ++ more)
    (hpart : ∀ k, k < ws.length → decode (s.inbuf ++ ws.take k) = .incomplete) :
    stepsFrom ws.length s = .next { s with inbuf := s.inbuf ++ ws, port := more } := by
  induction ws generalizing s with
  | nil =>
    obtain ⟨⟩ := s
    simp_all
  | cons w ws ih =>
    have hd : decode s.inbuf = .incomplete := by simpa using hpart 0 (Nat.succ_pos _)
    have hstep := step_of_incomplete hr hp hd
    rw [State.receive_of_port_cons (ws := ws ++ more) hport] at hstep
    have hrest := ih (s := { s with inbuf := s.inbuf ++ [w], port := ws ++ more }) hr hp rfl
      fun k hk => by simpa using hpart (k + 1) (Nat.succ_lt_succ hk)
    rw [List.length_cons, stepsFrom_succ_of_step hstep, hrest]
    simp

/-! ### The statements -/

/-- Settles O9: the words of the command are taken one by one, since no part of an encoding is
decoded, and the whole is decoded as the command. -/
theorem commandInThePortIsReceivedAndExecuted :
    Obligations.CommandInThePortIsReceivedAndExecuted := by
  intro s i more hi hr hp hinbuf hport
  constructor
  · have hrun := stepsFrom_receive hr hp hport fun k hk => by
      simpa [hinbuf] using decode_take_encode hi hk
    rwa [hinbuf, List.nil_append, encode, List.length_cons, Nat.add_comm] at hrun
  · have hd : decode (encode i) = .command i [] := by simpa using decode_encode_append hi []
    rw [step_of_command (s := { s with inbuf := encode i, port := more }) hr hp hd, ← hinbuf]
    rfl

/-- Settles O8: while INBUF holds no complete command the step is the intake of a word, which with
an empty port changes nothing. -/
theorem partialCommandWaitsForItsWords : Obligations.PartialCommandWaitsForItsWords := by
  constructor
  · intro s w ws hr hp hd hport
    rw [step_of_incomplete hr hp hd, State.receive_of_port_cons hport]
  · intro s n hr hp hd hport
    have hwait : step s = .next s := by
      rw [step_of_incomplete hr hp hd, State.receive_of_port_nil hport]
    exact stepsFrom_of_step_self hwait n

/-- Settles O7: with a complete command in INBUF the step is its execution. -/
theorem stepRunsTheDecodedCommand : Obligations.StepRunsTheDecodedCommand :=
  fun _ _ _ hr hp hd => step_of_command hr hp hd

end Sys2Proof.Machine
end

section
/-!
PROOF of O10, O21, O22 and O23: what a command and a loop step leave alone (`Frame`), whether they
answer (`AnswersOrLoops`), and which steps write VALID and the feeder.  All are read off the cases
of `CommandResult` and `StepResult`.
-/

namespace Sys2Proof.Machine

variable {s t : State} {i : Instr} {c : Nibble}

/-! ### What a command and a loop step leave alone -/

/-- `t` has the contexts of `s` except the named one, and its count of contexts, INBUF, port and
reset input. -/
structure Frame (named : Option Nibble) (s t : State) : Prop where
  others : ∀ d : Nat, (∀ c, named = some c → d ≠ c.toNat) → t.ctxs[d]? = s.ctxs[d]?
  count : t.ctxs.length = s.ctxs.length
  inbuf : t.inbuf = s.inbuf
  port : t.port = s.port
  resetIn : t.resetIn = s.resetIn

/-- Emitting a response writes nothing that `Frame` speaks of. -/
theorem Frame.finish {named : Option Nibble} (h : Frame named s t) (st : Status) (rs : List Word) :
    Frame named s (t.finish st rs) :=
  ⟨h.others, h.count, h.inbuf, h.port, h.resetIn⟩

theorem Frame.setPhase {named : Option Nibble} (h : Frame named s t) (p : Phase) :
    Frame named s (t.setPhase p) :=
  ⟨h.others, h.count, h.inbuf, h.port, h.resetIn⟩

theorem Frame.refl (named : Option Nibble) (s : State) : Frame named s s :=
  ⟨fun _ _ => rfl, rfl, rfl, rfl, rfl⟩

theorem Frame.setCtx (s : State) (c : Nibble) (x : Context) : Frame (some c) s (s.setCtx c x) where
  others _ hd := List.getElem?_set_ne (hd c rfl).symm
  count := List.length_set
  inbuf := rfl
  port := rfl
  resetIn := rfl

/-- A command writes no context but the one it names (R20). -/
theorem CommandResult.frame (h : CommandResult i s t) : Frame (namedContext i) s t := by
  cases h with
  | failed e he => exact (Frame.refl _ s).finish e []
  | answered rs hrs => exact (Frame.refl _ s).finish .ok rs
  | seeded c a p hi hc hp =>
    subst hi
    exact (Frame.setCtx s c _).finish .ok []
  | drawn c x y r hi hx hv hy =>
    rw [hi]
    exact (Frame.setCtx s c y).finish .ok [r]
  | looping c range x v hi hx hf hr hlow =>
    have hnamed : namedContext i = some c := by
      rcases hi with ⟨rfl, _⟩ | ⟨rfl, _⟩ <;> rfl
    rw [hnamed]
    exact (Frame.setCtx s c _).setPhase _

/-- A step of a rejection loop writes no context but the loop's (R244). -/
theorem bdrawRedraw_frame (v : Variant) (c : Nibble) (range th : U32) (x : Context) (s : State) :
    Frame (some c) s (bdrawRedraw v c range th x s) := by
  rcases bdrawRedraw_cases v c range th x s with ⟨_, he⟩ | ⟨_, he⟩ <;> rw [he]
  · exact (Frame.setCtx s c _).finish .ok _
  · exact (Frame.setCtx s c _).setPhase _

/-- Settles O23: the frame of a command and of a loop step. -/
theorem otherContextsAreUnchanged : Obligations.OtherContextsAreUnchanged := by
  constructor
  · intro i s t h
    obtain ⟨hothers, hcount, hinbuf, hport, hreset⟩ := (exec_result h).frame
    exact ⟨hothers, hcount, hinbuf, hport, hreset⟩
  · intro v c range th s t h
    obtain ⟨x, _, _, rfl⟩ := bdrawLoop_eq_next_iff.mp h
    obtain ⟨hothers, hcount, hinbuf, hport, hreset⟩ := bdrawRedraw_frame v c range th x s
    refine ⟨fun d hd => hothers d ?_, hcount, hinbuf, hport, hreset⟩
    rintro _ ⟨⟩
    exact hd

/-! ### Responses -/

/-- `t` has one response more than `s` and is IDLE, or it has the same and is inside a rejection
loop (R29, R236). -/
def AnswersOrLoops (s t : State) : Prop :=
  (∃ r, t.responses = s.responses ++ [r] ∧ t.phase = .idle) ∨
    (t.responses = s.responses ∧ ∃ c range th m v, t.phase = .loop c range th m v)

theorem CommandResult.answersOrLoops (h : CommandResult i s t) : AnswersOrLoops s t := by
  cases h with
  | failed | answered | seeded | drawn => exact .inl ⟨_, rfl, rfl⟩
  | looping => exact .inr ⟨rfl, _, _, _, _, _, rfl⟩

theorem bdrawRedraw_answersOrLoops (v : Variant) (c : Nibble) (range th : U32) (x : Context)
    (s : State) : AnswersOrLoops s (bdrawRedraw v c range th x s) := by
  rcases bdrawRedraw_cases v c range th x s with ⟨_, he⟩ | ⟨_, he⟩ <;> rw [he]
  · exact .inl ⟨_, rfl, rfl⟩
  · exact .inr ⟨rfl, _, _, _, _, _, rfl⟩

/-- Settles O10: by what the step was; only a command and a loop step can answer. -/
theorem oneResponseWhenACommandEnds : Obligations.OneResponseWhenACommandEnds := by
  intro s t h
  cases step_result h with
  | reset hr => exact .inr ⟨rfl, .inl hr⟩
  | redraw hr c range th m v x hp hx hf =>
    rcases bdrawRedraw_answersOrLoops v c range th x s with hends | ⟨hsame, hloop⟩
    · exact .inl ⟨hr, .inr ⟨c, range, th, m, v, hp⟩, hends⟩
    · exact .inr ⟨hsame, .inr (.inr hloop)⟩
  | received hr hp hd => exact .inr ⟨s.receive_responses, .inr (.inl ⟨hp, hd⟩)⟩
  | illegal hr hp why rest hd => exact .inl ⟨hr, .inl ⟨hp, by simp [hd]⟩, _, rfl, rfl⟩
  | command hr hp i rest hd t ht =>
    rcases ht.answersOrLoops with hends | ⟨hsame, hloop⟩
    · exact .inl ⟨hr, .inl ⟨hp, by simp [hd]⟩, hends⟩
    · exact .inr ⟨hsame, .inr (.inr hloop)⟩

/-! ### Fields of a context that a step keeps -/

/-- Every context of `t` has the `f` it has in `s`. -/
def Keeps {α : Type} (f : Context → α) (s t : State) : Prop := t.ctxs.map f = s.ctxs.map f

section KeepsLemmas

variable {α : Type} {f : Context → α}

theorem Keeps.apply_eq (h : Keeps f s t) {d : Nat} {x y : Context} (hx : s.ctxs[d]? = some x)
    (hy : t.ctxs[d]? = some y) : f y = f x := by
  have hd := congrArg (·[d]?) h
  simpa [hx, hy] using hd

/-- Writing back a context with the same `f` keeps it. -/
theorem Keeps.setCtx {x y : Context} (hx : s.ctx? c = some x) (hf : f y = f x) :
    Keeps f s (s.setCtx c y) := by
  obtain ⟨hlt, rfl⟩ := List.getElem?_eq_some_iff.mp hx
  have hget : f y = (s.ctxs.map f)[c.toNat]'(by simpa using hlt) := by simpa using hf
  rw [Keeps, State.setCtx_ctxs, List.map_set, hget, List.set_getElem_self]

end KeepsLemmas

/-! ### VALID -/

/-- Draws keep VALID. -/
theorem Context.DrawnTo.valid_eq {x y : Context} (h : x.DrawnTo y) : y.valid = x.valid := by
  rcases h with rfl | rfl | ⟨rfl, _⟩ <;> simp

/-- A command keeps VALID of every context, unless it seeds one (R24). -/
theorem CommandResult.seeds_or_keeps_valid (h : CommandResult i s t) :
    (∃ c a p, i = .seed c a p ∧ seedLegal a p = true ∧
      t = (s.setCtx c (Context.seeded a p)).finish .ok []) ∨ Keeps Context.valid s t := by
  cases h with
  | failed | answered => exact .inr rfl
  | seeded c a p hi hc hp => exact .inl ⟨c, a, p, hi, hp, rfl⟩
  | drawn c x y r hi hx hv hy => exact .inr (Keeps.setCtx hx hy.valid_eq)
  | looping c range x v hi hx hf hr hlow => exact .inr (Keeps.setCtx hx x.feed_valid)

theorem bdrawRedraw_keeps_valid {x : Context} (hx : s.ctx? c = some x) (v : Variant)
    (range th : U32) : Keeps Context.valid s (bdrawRedraw v c range th x s) := by
  have hfeed : Keeps Context.valid s (s.setCtx c x.feed.1) := Keeps.setCtx hx x.feed_valid
  rcases bdrawRedraw_cases v c range th x s with ⟨_, he⟩ | ⟨_, he⟩ <;> exact he ▸ hfeed

/-- A step that is no reset keeps VALID of every context, unless it is that of a SEED (R24). -/
theorem StepResult.seeds_or_keeps_valid (h : StepResult s t) :
    s.resetIn = true ∨ Keeps Context.valid s t ∨
      s.resetIn = false ∧ s.phase = .idle ∧ ∃ c a p more,
        decode s.inbuf = .command (.seed c a p) more ∧ seedLegal a p = true ∧
        t = ((s.consume more).setCtx c (Context.seeded a p)).finish .ok [] := by
  cases h with
  | reset hr => exact .inl hr
  | redraw hr c range th m v x hp hx hf => exact .inr (.inl (bdrawRedraw_keeps_valid hx v range th))
  | received hr hp hd => exact .inr (.inl (by simp [Keeps]))
  | illegal hr hp why rest hd => exact .inr (.inl rfl)
  | command hr hp i rest hd t ht =>
    rcases ht.seeds_or_keeps_valid with ⟨c, a, p, rfl, hlegal, rfl⟩ | hkeeps
    · exact .inr (.inr ⟨hr, hp, c, a, p, rest, hd, hlegal, rfl⟩)
    · exact .inr (.inl hkeeps)

/-- Settles O21: a step that is neither a reset nor a SEED keeps VALID, a reset clears it, and a
SEED sets it in the context it names and keeps the others. -/
theorem onlySeedAndResetWriteValid : Obligations.OnlySeedAndResetWriteValid := by
  intro s t d x y h hx hy
  have hlt : d < s.ctxs.length := (List.getElem?_eq_some_iff.mp hx).1
  rcases (step_result h).seeds_or_keeps_valid with
    hr | hkeeps | ⟨hr, hp, c, a, p, more, hd, hlegal, rfl⟩
  · refine ⟨fun _ hyv => ?_, fun _ _ => hr⟩
    obtain rfl : s.applyReset = t := Host.Outcome.next.inj ((step_of_reset hr).symm.trans h)
    obtain rfl : Context.reset = y := by simpa [hlt] using hy
    exact absurd hyv (by decide)
  · have hsame : y.valid = x.valid := hkeeps.apply_eq hx hy
    exact ⟨fun hxv hyv => by simp_all, fun hxv hyv => by simp_all⟩
  · by_cases hcd : c.toNat = d
    · refine ⟨fun _ _ => ⟨hr, hp, c, a, p, more, hd, hcd, hlegal, rfl⟩, fun _ hyv => ?_⟩
      obtain rfl : Context.seeded a p = y := by simpa [hcd, hlt] using hy
      exact absurd hyv (by simp [Context.seeded])
    · obtain rfl : x = y := by simpa [List.getElem?_set_ne hcd, hx] using hy
      exact ⟨fun hxv hyv => by simp_all, fun hxv hyv => by simp_all⟩

/-! ### The feeder -/

/-- The feeder of a context, HALF and CACHE (R25). -/
def Context.feeder (x : Context) : Bool × U32 := (x.half, x.cache)

/-- The command is one of those that may write the feeder of context `c` (R25). -/
def WritesFeeder (i : Instr) (c : Nibble) : Prop :=
  (∃ a p, i = .seed c a p) ∨ i = .feed32 c ∨ (∃ range, i = .bdrawDf c range) ∨
    ∃ range, i = .bdrawDa c range

theorem WritesFeeder.namedContext_eq (h : WritesFeeder i c) : namedContext i = some c := by
  rcases h with ⟨_, _, rfl⟩ | rfl | ⟨_, rfl⟩ | ⟨_, rfl⟩ <;> rfl

@[simp] theorem Context.advance_feeder (x : Context) : x.advance.1.feeder = x.feeder := rfl

/-- `draw64` does not use the feeder (R206). -/
@[simp] theorem Context.draw64_feeder (x : Context) : x.draw64.1.feeder = x.feeder := by
  rcases x.draw64_cases with ⟨_, h⟩ | ⟨_, h⟩ <;> simp [h]

/-- NEXTD_M and NEXTD_B keep the feeders (R25). -/
theorem drawConverted_keeps_feeder (conv : Word → Word) (c : Nibble) (s : State) :
    Keeps Context.feeder s (drawConverted conv c s) := by
  unfold drawConverted
  cases hc : s.checkSeeded c with
  | error e => exact rfl
  | ok x => exact Keeps.setCtx (State.checkSeeded_ok_iff.mp hc).1 x.draw64_feeder

/-- A command that is none of those keeps the feeder of every context (R25, R139, R206). -/
theorem exec_writes_or_keeps_feeder (h : exec i s = .next t) :
    (∃ c, WritesFeeder i c) ∨ Keeps Context.feeder s t := by
  cases i with
  | seed c a p => exact .inl ⟨c, .inl ⟨a, p, rfl⟩⟩
  | feed32 c => exact .inl ⟨c, .inr (.inl rfl)⟩
  | bdrawDf c range => exact .inl ⟨c, .inr (.inr (.inl ⟨range, rfl⟩))⟩
  | bdrawDa c range => exact .inl ⟨c, .inr (.inr (.inr ⟨range, rfl⟩))⟩
  | next c =>
    right
    obtain rfl := Host.Outcome.next.inj h
    cases hc : s.checkSeeded c with
    | error e => exact rfl
    | ok x => exact Keeps.setCtx (State.checkSeeded_ok_iff.mp hc).1 x.advance_feeder
  | cvtm x => exact .inr (Host.Outcome.next.inj h ▸ rfl)
  | cvtb x => exact .inr (Host.Outcome.next.inj h ▸ rfl)
  | nextdM c => exact .inr (Host.Outcome.next.inj h ▸ drawConverted_keeps_feeder convMul c s)
  | nextdB c => exact .inr (Host.Outcome.next.inj h ▸ drawConverted_keeps_feeder convBit c s)
  | rdst c =>
    right
    obtain rfl := Host.Outcome.next.inj h
    cases s.checkContext c <;> exact rfl

/-- Settles O22: a step that is no reset and that changes the feeder of a context is a loop step on
it or runs a command that writes its feeder. -/
theorem onlyFeedsSeedAndResetWriteTheFeeder : Obligations.OnlyFeedsSeedAndResetWriteTheFeeder := by
  intro s t d x y h hx hy hchange
  have hne : y.feeder ≠ x.feeder := by
    simp only [Context.feeder, ne_eq, Prod.mk.injEq]
    tauto
  have notKept : t.ctxs[d]? ≠ s.ctxs[d]? := by
    intro hsame
    obtain rfl : x = y := by simpa [hx, hy] using hsame.symm
    exact hne rfl
  cases step_result h with
  | reset hr => exact .inl hr
  | redraw hr c range th m v z hp hz hf =>
    refine .inr (.inl ⟨hr, c, range, th, m, v, hp, ?_⟩)
    by_contra hcd
    refine notKept ((bdrawRedraw_frame v c range th z s).others d ?_)
    rintro _ ⟨⟩
    exact Ne.symm hcd
  | received hr hp hd => exact absurd (by simp) notKept
  | illegal hr hp why rest hd => exact absurd rfl notKept
  | command hr hp i rest hd t ht =>
    have hexec : exec i (s.consume rest) = .next t := (step_of_command hr hp hd).symm.trans h
    rcases exec_writes_or_keeps_feeder hexec with ⟨c, hc⟩ | hkeeps
    · refine .inr (.inr ⟨hr, hp, c, i, rest, hd, ?_, hc⟩)
      by_contra hcd
      refine notKept (ht.frame.others d ?_)
      rintro c' hc'
      obtain rfl : c = c' := Option.some.inj (hc.namedContext_eq.symm.trans hc')
      exact Ne.symm hcd
    · exact absurd (hkeeps.apply_eq hx hy) hne

end Sys2Proof.Machine
end

section
/-!
PROOF of O12, O14, O37 and O41: the seed precondition of R140 as the test `seedLegal`, what SEED
writes, what each command answers on an unseeded context (R301), and the bits of CTXCTL (R26).
-/

namespace Sys2Proof.Machine

/-! ### The seed precondition -/

/-- A payload word has bits 63:32 zero exactly when it is below `2^32`. -/
theorem hi32_eq_zero_iff (x : Word) : hi32 x = 0#32 ↔ x.toNat < 2 ^ 32 := by
  have hlt := x.isLt
  rw [← BitVec.toNat_inj]
  simp [hi32, Nat.shiftRight_eq_div_pow]
  omega

/-- The width test of R140 (D41). -/
theorem seedWidthOk_iff (a : Alg) (p : List Word) :
    seedWidthOk a p = true ↔ (width a = 32 → ∀ x ∈ p, x.toNat < 2 ^ 32) := by
  rcases width_cases a with ha | ha <;> simp [seedWidthOk, ha, hi32_eq_zero_iff]

/-- One of the first two words is nonzero; a word the payload does not have reads as zero. -/
theorem any_take_two_ne_zero_iff (p : List Word) :
    (p.take 2).any (· != 0) = true ↔ ¬ (p.getD 0 0 = 0 ∧ p.getD 1 0 = 0) := by
  rcases p with _ | ⟨a, _ | ⟨b, p⟩⟩ <;> simp
  tauto

/-- One of the first four words is nonzero. -/
theorem any_take_four_ne_zero_iff (p : List Word) :
    (p.take 4).any (· != 0) = true ↔
      ¬ (p.getD 0 0 = 0 ∧ p.getD 1 0 = 0 ∧ p.getD 2 0 = 0 ∧ p.getD 3 0 = 0) := by
  rcases p with _ | ⟨a, _ | ⟨b, _ | ⟨c, _ | ⟨d, p⟩⟩⟩⟩ <;> simp <;> tauto

/-- The non-zero-state test of R143. -/
theorem seedOk_iff (a : Alg) (p : List Word) :
    seedOk a p = true ↔ Sys2Proof.Claims.SeedIsAccepted a p := by
  cases a with
  | xorshift32 | xorshift64 => simp [seedOk, Sys2Proof.Claims.SeedIsAccepted]
  | xorshift128 | xoshiro128pp | xoshiro256pp | xorwow => exact any_take_four_ne_zero_iff p
  | xorshift128p => exact any_take_two_ne_zero_iff p
  | splitmix32 | splitmix64 => exact iff_of_true rfl trivial

/-- The test of check 9 is the precondition of R140. -/
theorem seedLegal_iff (a : Alg) (p : List Word) :
    seedLegal a p = true ↔ Sys2Proof.Claims.SeedIsLegal a p := by
  simp only [seedLegal, Sys2Proof.Claims.SeedIsLegal, Bool.and_eq_true, beq_iff_eq,
    seedWidthOk_iff, seedOk_iff, and_assoc]

/-! ### What SEED writes -/

/-- The words SEED writes are the payload in order, and zero above it (R140). -/
theorem Words.get_ofPayload (p : List Word) {i : Nat} (hi : i < 6) :
    (Words.ofPayload p).get i = p.getD i 0 := by
  rcases Words.slot_cases i with rfl | rfl | rfl | rfl | rfl | rfl | h
  case inr.inr.inr.inr.inr.inr => omega
  all_goals rfl

/-- SEED of an existing context with a legal seed (R140). -/
theorem exec_seed_of_legal {s : State} {c : Nibble} {a : Alg} {p : List Word}
    (hc : c.toNat < s.ctxs.length) (hp : seedLegal a p = true) :
    exec (.seed c a p) s = .next ((s.setCtx c (Context.seeded a p)).finish .ok []) := by
  have hx : s.checkContext c = .ok s.ctxs[c.toNat] :=
    State.checkContext_ok_iff.mpr (List.getElem?_eq_getElem hc)
  simp [exec, execSeed, hx, hp]

/-- Settles O37: the table is read off, and the words SEED writes are those of the payload, which
has as many words as the arity says. -/
theorem seedWritesTheContext : Obligations.SeedWritesTheContext := by
  refine ⟨rfl, fun s c a p hc hp => ?_⟩
  have hlen : p.length = arity a := hp.1
  refine ⟨Words.ofPayload p, fun i hi => ?_, exec_seed_of_legal hc ((seedLegal_iff a p).mpr hp)⟩
  rw [Words.get_ofPayload p hi]
  split
  · rfl
  · exact List.getD_eq_default _ _ (by omega)

/-! ### The reset state -/

@[simp] theorem Words.get_zero (i : Nat) : Words.zero.get i = 0 := by
  rcases Words.slot_cases i with rfl | rfl | rfl | rfl | rfl | rfl | h
  case inr.inr.inr.inr.inr.inr => exact Words.get_of_ge _ h
  all_goals rfl

theorem State.eq_reset_of_mem_reset {x : Context} (hx : x ∈ State.reset.ctxs) :
    x = Context.reset :=
  List.eq_of_mem_replicate hx

theorem State.reset_ctx? {c : Nibble} (hc : c.toNat < Config.nctx) :
    State.reset.ctx? c = some Context.reset :=
  List.getElem?_replicate_of_lt hc

/-- No context is seeded after reset, so none is in a zero fixed point (R301). -/
theorem State.reset_nonDegenerate : State.reset.NonDegenerate := by
  intro x hx hv
  rw [State.eq_reset_of_mem_reset hx] at hv
  exact absurd hv (by decide)

/-- Settles O12: the reset state is a list of reset contexts. -/
theorem resetStateHasTheResetValues : Obligations.ResetStateHasTheResetValues := by
  refine ⟨List.length_replicate, fun x hx => ?_, rfl, rfl⟩
  rw [State.eq_reset_of_mem_reset hx]
  exact ⟨rfl, rfl, Words.get_zero, rfl, rfl, rfl⟩

section Unseeded

variable {s : State} {c : Nibble} {x : Context}

/-! ### Drawing from an unseeded context -/

theorem State.checkSeeded_of_unseeded (hx : s.ctx? c = some x) (hv : x.valid = false) :
    s.checkSeeded c = .error .notSeeded :=
  State.checkSeeded_error_iff.mpr (.inr ⟨x, hx, hv, rfl⟩)

theorem State.checkFeedable_of_unseeded (hx : s.ctx? c = some x) (hv : x.valid = false) :
    s.checkFeedable c = .error .notSeeded :=
  State.checkFeedable_error_iff.mpr (.inl (State.checkSeeded_of_unseeded hx hv))

theorem State.checkRange_of_unseeded (hx : s.ctx? c = some x) (hv : x.valid = false)
    (range : U32) : s.checkRange c range = .error .notSeeded :=
  State.checkRange_error_iff.mpr (.inl (State.checkFeedable_of_unseeded hx hv))

/-- The six drawing commands refuse an unseeded context (R24, R301). -/
theorem exec_draw_of_unseeded {i : Instr} (hx : s.ctx? c = some x) (hv : x.valid = false)
    (hi : i = .next c ∨ i = .feed32 c ∨ (∃ range, i = .bdrawDf c range) ∨
      (∃ range, i = .bdrawDa c range) ∨ i = .nextdM c ∨ i = .nextdB c) :
    exec i s = .next (s.finish .notSeeded []) := by
  have hseeded := State.checkSeeded_of_unseeded hx hv
  rcases hi with rfl | rfl | ⟨range, rfl⟩ | ⟨range, rfl⟩ | rfl | rfl
  · simp [exec, execNext, hseeded]
  · simp [exec, execFeed32, State.checkFeedable_of_unseeded hx hv]
  · simp [exec, execBdrawDf, bdraw, State.checkRange_of_unseeded hx hv]
  · simp [exec, execBdrawDa, bdraw, State.checkRange_of_unseeded hx hv]
  · simp [exec, execNextdM, drawConverted, hseeded]
  · simp [exec, execNextdB, drawConverted, hseeded]

/-- RDST answers the words of the context (R142). -/
theorem exec_rdst_of_ctx? (hx : s.ctx? c = some x) :
    exec (.rdst c) s = .next (s.finish .ok x.readWords) := by
  simp [exec, execRdst, State.checkContext_ok_iff.mpr hx]

end Unseeded

/-- Settles O14: each command's own lemma, at the reset state. -/
theorem commandsRightAfterReset : Obligations.CommandsRightAfterReset := by
  refine ⟨fun x hx => State.eq_reset_of_mem_reset hx ▸ rfl, State.reset_nonDegenerate,
    fun c hc => ⟨fun a p hp => ?_, ?_, fun i hi => ?_⟩, fun x => ⟨rfl, rfl⟩⟩
  · have hlt : c.toNat < State.reset.ctxs.length := by simpa [State.reset, State.resetWith] using hc
    exact ⟨_, exec_seed_of_legal hlt hp, rfl⟩
  · exact exec_rdst_of_ctx? (State.reset_ctx? hc)
  · exact exec_draw_of_unseeded (State.reset_ctx? hc) rfl hi

/-! ### CTXCTL -/

/-- The fields of CTXCTL do not overlap, so their union is their sum (R26). -/
theorem ctxctl_toNat (x : Context) :
    (ctxctl x).toNat = x.alg.code.toNat + 16 * x.valid.toNat + 32 * x.half.toNat := by
  have union_eq_sum : ∀ (n : Nibble) (v h : Bool),
      (n.setWidth 64 ||| shlN (flagBit v) 4 ||| shlN (flagBit h) 5).toNat =
        n.toNat + 16 * v.toNat + 32 * h.toNat := by decide
  exact union_eq_sum x.alg.code x.valid x.half

/-- Settles O41: every bit of CTXCTL is read off its value. -/
theorem ctxctlBitLayout : Obligations.CtxctlBitLayout := by
  refine ⟨rfl, fun x => ?_⟩
  have hval := ctxctl_toNat x
  have hcode := x.alg.code.isLt
  have hvalid := x.valid.toNat_lt
  have hhalf := x.half.toNat_lt
  refine ⟨?_, ?_, ?_, ?_, hval⟩
  · apply BitVec.eq_of_toNat_eq
    simp [hval]
    omega
  · cases hv : x.valid <;>
      simp [BitVec.getLsbD, hval, Nat.testBit_eq_decide_div_mod_eq, hv] <;> omega
  · cases hh : x.half <;>
      simp [BitVec.getLsbD, hval, Nat.testBit_eq_decide_div_mod_eq, hh] <;> omega
  · apply BitVec.eq_of_toNat_eq
    simp [hval, Nat.shiftRight_eq_div_pow]
    omega

end Sys2Proof.Machine
end

section
/-!
PROOF of O18 and O19: the invariant of the reachable states.  Each way to write a context keeps
`Context.Inv`, each update of the state keeps `State.Inv`, and a step is made of those updates in
each case of `StepResult`.  A step stops only on a loop whose context cannot be fed, which the
invariant excludes.
-/

namespace Sys2Proof

/-! ### The words of a decoded command -/

/-- The words begin with a complete command, legal or not, and `rest` are the words after it. -/
def Decodes (ws rest : List Word) : Prop :=
  (∃ i, decode ws = .command i rest) ∨ ∃ why, decode ws = .illegal why rest

/-- What is decoded is a header with as many words as it announces (R71). -/
theorem Decodes.split {ws rest : List Word} (hd : Decodes ws rest) :
    ∃ h ps, ws = h :: (ps ++ rest) ∧ ps.length = (nwOf h).toNat := by
  rcases decode_cases ws with hi | ⟨h, ps, rfl, hle, hcase⟩
  · simp [Decodes, hi] at hd
  · have hrest : ps.drop (nwOf h).toNat = rest := by
      rcases hcase with ⟨i, _, _, hi⟩ | ⟨why, _, hi⟩ <;> simpa [Decodes, hi] using hd
    exact ⟨h, ps.take (nwOf h).toNat, by rw [← hrest, List.take_append_drop],
      List.length_take_of_le hle⟩

end Sys2Proof

namespace Sys2Proof.Machine

/-! ### The contexts -/

theorem Context.inv_reset : Context.reset.Inv where
  unused i _ := Words.get_zero i
  narrow _ i := by simp [Context.reset]
  unseeded _ := rfl
  empty _ := rfl
  cached h := absurd h (by decide)

/-- A legal seed leaves a context with no word past the arity and none too wide (R140). -/
theorem Context.inv_seeded {a : Alg} {p : List Word} (hp : seedLegal a p = true) :
    (Context.seeded a p).Inv := by
  obtain ⟨hlen, hnarrow, _⟩ := (seedLegal_iff a p).mp hp
  exact {
    unused := fun i hi => by
      by_cases h6 : i < 6
      · rw [Context.seeded, Words.get_ofPayload p h6]
        exact List.getD_eq_default _ _ (hlen ▸ hi)
      · exact Words.get_of_ge _ (by omega)
    narrow := fun hw i => by
      by_cases h6 : i < 6
      · rw [Context.seeded, Words.get_ofPayload p h6]
        by_cases hi : i < p.length
        · rw [List.getD_eq_getElem _ _ hi]
          exact hnarrow hw _ (List.getElem_mem hi)
        · rw [List.getD_eq_default _ _ (by omega)]
          decide
      · rw [Words.get_of_ge _ (by omega)]
        decide
    unseeded := fun h => absurd h (by simp [Context.seeded])
    empty := fun _ => rfl
    cached := fun h => absurd h (by simp [Context.seeded]) }

section Draws

variable {x y : Context}

/-- A transition keeps the form of the words, and `advance` writes nothing else (R139). -/
theorem Context.Inv.advance (h : x.Inv) (hv : x.valid = true) : x.advance.1.Inv where
  unused i hi := (transition_unused x.alg x.w i hi).trans (h.unused i hi)
  narrow hw := (transition_narrow x.alg x.w hw (h.narrow hw)).1
  unseeded hn := absurd (hv.symm.trans hn) (by decide)
  empty := h.empty
  cached := h.cached

theorem Context.Inv.draw64 (h : x.Inv) (hv : x.valid = true) : x.draw64.1.Inv := by
  rcases x.draw64_cases with ⟨_, he⟩ | ⟨_, he⟩ <;> rw [he]
  · exact h.advance hv
  · exact (h.advance hv).advance hv

/-- A feed empties the feeder, or fills it from a sample of a 64-bit algorithm (R230). -/
theorem Context.Inv.feed (h : x.Inv) (hv : x.valid = true) (hw : width x.alg = 64) :
    x.feed.1.Inv := by
  cases hh : x.half with
  | true =>
    rw [Context.feed_of_cached hh]
    exact { h with
      unseeded := fun hn => absurd (hv.symm.trans hn) (by decide)
      empty := fun _ => rfl
      cached := fun hc => absurd hc Bool.false_ne_true }
  | false =>
    rw [Context.feed_of_empty hh]
    exact { h.advance hv with
      unseeded := fun hn => absurd (hv.symm.trans hn) (by decide)
      empty := fun hc => absurd hc.symm Bool.false_ne_true
      cached := fun _ => hw }

theorem Context.DrawnTo.inv (hy : x.DrawnTo y) (h : x.Inv) (hv : x.valid = true) : y.Inv := by
  rcases hy with rfl | rfl | ⟨rfl, hw⟩
  · exact h.advance hv
  · exact h.draw64 hv
  · exact h.feed hv hw

end Draws

/-! ### The updates of the state -/

section Updates

variable {s t : State} {c : Nibble} {x : Context}

theorem State.Inv.ctx? (h : s.Inv) (hx : s.ctx? c = some x) : x.Inv :=
  h.contexts x (State.ctx?_mem hx)

theorem State.Inv.feed (h : s.Inv) (hx : s.ctx? c = some x) (hf : x.feedable = true) :
    x.feed.1.Inv := by
  obtain ⟨hv, hw⟩ := x.feedable_iff.mp hf
  exact (h.ctx? hx).feed hv hw

/-- Writing a context keeps the invariant; inside the loop the context must be one that can be
fed. -/
theorem State.Inv.setCtx (h : s.Inv) (hx : x.Inv) (hf : s.phase = .idle ∨ x.feedable = true) :
    (s.setCtx c x).Inv where
  count := by simpa using h.count
  contexts y hy := by
    rcases List.mem_or_eq_of_mem_set hy with hy | rfl
    · exact h.contexts y hy
    · exact hx
  inbuf := h.inbuf
  looping d range th m v hp := by
    obtain ⟨hinbuf, hrange, hth, hlow, hm, y, hy, hfy⟩ := h.looping d range th m v hp
    refine ⟨hinbuf, hrange, hth, hlow, hm, ?_⟩
    by_cases hcd : c = d
    · subst hcd
      refine ⟨x, State.ctx?_setCtx_same x (State.ctx?_eq_some_lt hy), ?_⟩
      exact hf.resolve_left fun hidle => by simp [hidle] at hp
    · exact ⟨y, (State.ctx?_setCtx_other s x hcd).trans hy, hfy⟩
  responses := h.responses

/-- Ending a command keeps the invariant when the response has the form of R78. -/
theorem State.Inv.finish (h : s.Inv) {st : Status} {rs : List Word} (hst : st ≠ .ok → rs = [])
    (hrs : rs.length ≤ 8) : (s.finish st rs).Inv where
  count := h.count
  contexts := h.contexts
  inbuf := h.inbuf
  looping _ _ _ _ _ hp := by simp at hp
  responses r hr := by
    rcases List.mem_append.mp hr with hr | hr
    · exact h.responses r hr
    · obtain rfl := List.mem_singleton.mp hr
      exact ⟨hst, hrs⟩

/-- A rejected draw on a context that can be fed keeps the invariant (R236). -/
theorem State.Inv.setPhase_loop (h : s.Inv) (hinbuf : s.inbuf = []) {range y : U32} {v : Variant}
    (hrange : range ≠ 0) (hlow : lo32 (mulw y range) < threshold v range)
    (hx : s.ctx? c = some x) (hf : x.feedable = true) :
    (s.setPhase (.loop c range (threshold v range) (mulw y range) v)).Inv where
  count := h.count
  contexts := h.contexts
  inbuf := h.inbuf
  looping d r th m w hp := by
    obtain ⟨rfl, rfl, rfl, rfl, rfl⟩ := Phase.loop.inj hp
    exact ⟨hinbuf, hrange, rfl, hlow, ⟨y, rfl⟩, x, hx, hf⟩
  responses := h.responses

/-- Decoding a command keeps the invariant: it leaves INBUF empty. -/
theorem State.Inv.consume_nil (h : s.Inv) : (s.consume []).Inv where
  count := h.count
  contexts := h.contexts
  inbuf _ _ he := by simp at he
  looping c range th m v hp := ⟨rfl, (h.looping c range th m v hp).2⟩
  responses := h.responses

/-- Taking a word of a command that has not arrived whole keeps the invariant (R71). -/
theorem State.Inv.receive (h : s.Inv) (hp : s.phase = .idle) (hd : decode s.inbuf = .incomplete) :
    s.receive.Inv := by
  cases hport : s.port with
  | nil => rwa [State.receive_of_port_nil hport]
  | cons w ws =>
    rw [State.receive_of_port_cons hport]
    refine { h with inbuf := fun hd' ps he => ?_, looping := fun _ _ _ _ _ hl => ?_ }
    · cases hin : s.inbuf with
      | nil =>
        obtain ⟨rfl, rfl⟩ : w = hd' ∧ [] = ps := by simpa [hin] using he
        simp
      | cons k qs =>
        obtain ⟨rfl, rfl⟩ : k = hd' ∧ qs ++ [w] = ps := by simpa [hin] using he
        rw [hin, decode_cons_eq_incomplete_iff] at hd
        simpa using hd
    · simp [hp] at hl

theorem State.Inv.applyReset (h : s.Inv) : s.applyReset.Inv where
  count := by simpa using h.count
  contexts x hx := by
    obtain ⟨_, _, rfl⟩ := List.mem_map.mp hx
    exact Context.inv_reset
  inbuf _ _ he := by simp at he
  looping _ _ _ _ _ hp := by simp at hp
  responses := h.responses

/-- The invariant does not speak of the words that wait in the port. -/
theorem State.Inv.hostSend (h : s.Inv) (ws : List Word) : (s.hostSend ws).Inv where
  count := h.count
  contexts := h.contexts
  inbuf := h.inbuf
  looping := h.looping
  responses := h.responses

/-! ### The steps -/

/-- INBUF holds words of one command only, so decoding leaves none. -/
theorem State.Inv.rest_eq_nil (h : s.Inv) {rest : List Word} (hd : Decodes s.inbuf rest) :
    rest = [] := by
  obtain ⟨w, ps, hinbuf, hlen⟩ := hd.split
  have hle := h.inbuf w (ps ++ rest) hinbuf
  rw [List.length_append] at hle
  exact List.eq_nil_of_length_eq_zero (by omega)

/-- A loop step keeps the invariant of its loop (R236). -/
theorem State.Inv.bdrawRedraw (h : s.Inv) {range th : U32} {m : Word} {v : Variant}
    (hp : s.phase = .loop c range th m v) (hx : s.ctx? c = some x) (hf : x.feedable = true) :
    (bdrawRedraw v c range th x s).Inv := by
  obtain ⟨hinbuf, hrange, rfl, _⟩ := h.looping c range th m v hp
  have hff : x.feed.1.feedable = true := by rwa [x.feed_feedable]
  have hset : (s.setCtx c x.feed.1).Inv := h.setCtx (h.feed hx hf) (.inr hff)
  rcases bdrawRedraw_cases v c range (threshold v range) x s with ⟨_, he⟩ | ⟨hlow, he⟩ <;> rw [he]
  · exact hset.finish (by simp) (by simp)
  · exact hset.setPhase_loop hinbuf hrange hlow
      (State.ctx?_setCtx_same _ (State.ctx?_eq_some_lt hx)) hff

/-- A command that has left INBUF empty keeps the invariant. -/
theorem CommandResult.inv {i : Instr} (ht : CommandResult i s t) (h : s.Inv) (hp : s.phase = .idle)
    (hinbuf : s.inbuf = []) : t.Inv := by
  cases ht with
  | failed e he => exact h.finish (by simp) (by simp)
  | answered rs hrs => exact h.finish (by simp) (by omega)
  | seeded c a p hi hc hlegal =>
    exact (h.setCtx (Context.inv_seeded hlegal) (.inl hp)).finish (by simp) (by simp)
  | drawn c x y r hi hx hv hy =>
    exact (h.setCtx (hy.inv (h.ctx? hx) hv) (.inl hp)).finish (by simp) (by simp)
  | looping c range x v hi hx hf hr hlow =>
    exact (h.setCtx (h.feed hx hf) (.inl hp)).setPhase_loop hinbuf hr hlow
      (State.ctx?_setCtx_same _ (State.ctx?_eq_some_lt hx)) (by rwa [x.feed_feedable])

/-- Every step keeps the invariant. -/
theorem StepResult.inv (ht : StepResult s t) (h : s.Inv) : t.Inv := by
  cases ht with
  | reset hr => exact h.applyReset
  | redraw hr c range th m v x hp hx hf => exact h.bdrawRedraw hp hx hf
  | received hr hp hd => exact h.receive hp hd
  | illegal hr hp why rest hd =>
    obtain rfl := h.rest_eq_nil (.inr ⟨why, hd⟩)
    exact h.consume_nil.finish (by simp) (by simp)
  | command hr hp i rest hd t ht =>
    obtain rfl := h.rest_eq_nil (.inl ⟨i, hd⟩)
    exact ht.inv h.consume_nil hp rfl

/-- No step changes the number of contexts (R20). -/
theorem StepResult.count_eq (ht : StepResult s t) : t.ctxs.length = s.ctxs.length := by
  cases ht with
  | reset hr => simp
  | redraw hr c range th m v x hp hx hf => exact (bdrawRedraw_frame v c range th x s).count
  | received hr hp hd => simp
  | illegal hr hp why rest hd => rfl
  | command hr hp i rest hd t ht => exact ht.frame.count

/-- A state that meets the invariant has a next state: its loop can be fed. -/
theorem State.Inv.step_answers (h : s.Inv) : ∃ t, step s = .next t := by
  cases hr : s.resetIn with
  | true => exact ⟨_, step_of_reset hr⟩
  | false =>
    cases hp : s.phase with
    | loop c range th m v =>
      obtain ⟨_, _, _, _, _, x, hx, hf⟩ := h.looping c range th m v hp
      exact ⟨_, (step_of_loop hr hp).trans (bdrawLoop_eq_next_iff.mpr ⟨x, hx, hf, rfl⟩)⟩
    | idle =>
      cases hd : decode s.inbuf with
      | incomplete => exact ⟨_, step_of_incomplete hr hp hd⟩
      | illegal why rest => exact ⟨_, step_of_illegal hr hp hd⟩
      | command i rest =>
        obtain ⟨t, ht⟩ := exec_answers i (s.consume rest)
        exact ⟨t, (step_of_command hr hp hd).trans ht⟩

end Updates

/-- Settles O19: a state that meets the invariant has a step, and every step keeps it. -/
theorem everyStepKeepsTheInvariant : Obligations.EveryStepKeepsTheInvariant := by
  intro s h
  obtain ⟨t, ht⟩ := h.step_answers
  exact ⟨t, ht, (step_result ht).inv h, (step_result ht).count_eq⟩

theorem State.inv_reset : State.reset.Inv where
  count := by
    have hle := Config.nctxPred.isLt
    simp only [State.reset, State.resetWith, List.length_replicate, Config.nctx]
    omega
  contexts x hx := State.eq_reset_of_mem_reset hx ▸ Context.inv_reset
  inbuf _ _ he := by simp [State.reset, State.resetWith] at he
  looping _ _ _ _ _ hp := by simp [State.reset, State.resetWith] at hp
  responses r hr := by simp [State.reset, State.resetWith] at hr

/-- Settles O18: NCTX is 1 to 16, every context is a reset one, and the rest is empty. -/
theorem invariantsHoldAtReset : Obligations.InvariantsHoldAtReset :=
  ⟨State.inv_reset, State.reset_nonDegenerate⟩

end Sys2Proof.Machine
end

section
/-!
PROOF of O60, second and third clause: a step that is no wait does with more words in the port what
it does without them, so a run is followed step by step until it is first over, and the words of the
next run then wait in the port.
-/

namespace Sys2Proof.Machine

variable {s t : State}

/-! ### Words sent to a block that does not wait for one -/

/-- The next step is not a wait for a word. -/
def State.Busy (s : State) : Prop :=
  s.resetIn = true ∨ s.phase ≠ .idle ∨ decode s.inbuf ≠ .incomplete ∨ s.port ≠ []

/-- A block that waits for a word stays as it is (R307). -/
theorem step_self_of_not_busy (h : ¬ s.Busy) : step s = .next s := by
  simp only [State.Busy, not_or, ne_eq, not_not, Bool.not_eq_true] at h
  obtain ⟨hr, hp, hd, hport⟩ := h
  rw [step_of_incomplete hr hp hd, State.receive_of_port_nil hport]

section Send

variable (ws : List Word)

theorem bdrawRedraw_hostSend (v : Variant) (c : Nibble) (range th : U32) (x : Context) :
    bdrawRedraw v c range th x (s.hostSend ws) = (bdrawRedraw v c range th x s).hostSend ws := by
  unfold bdrawRedraw
  dsimp only
  split <;> rfl

/-- A check reads no port, so it passes or fails with more words there as it does without them. -/
theorem check_hostSend {k : Except Status Context} {f g : Context → State}
    (hok : ∀ x, f x = (g x).hostSend ws) :
    (match k with | .error e => (s.hostSend ws).fail e | .ok x => f x) =
      (match k with | .error e => s.fail e | .ok x => g x).hostSend ws := by
  cases k with
  | error e => rfl
  | ok x => exact hok x

theorem bdrawFirst_hostSend (v : Variant) (c : Nibble) (range : U32) (x : Context) :
    bdrawFirst v c range x (s.hostSend ws) = (bdrawFirst v c range x s).hostSend ws := by
  rw [bdrawFirst_eq, bdrawFirst_eq, bdrawRedraw_hostSend]
  split <;> rfl

theorem bdraw_hostSend (v : Variant) (c : Nibble) (range : U32) :
    bdraw v c range (s.hostSend ws) = (bdraw v c range s).hostSend ws :=
  check_hostSend ws (bdrawFirst_hostSend ws v c range)

theorem drawConverted_hostSend (conv : Word → Word) (c : Nibble) :
    drawConverted conv c (s.hostSend ws) = (drawConverted conv c s).hostSend ws :=
  check_hostSend ws fun _ => rfl

/-- No command reads the port. -/
theorem exec_hostSend (i : Instr) (s : State) :
    ∃ t, exec i s = .next t ∧ exec i (s.hostSend ws) = .next (t.hostSend ws) := by
  cases i with
  | seed c a p =>
    refine ⟨_, rfl, congrArg _ (check_hostSend ws fun x => ?_)⟩
    cases seedLegal a p <;> rfl
  | next c =>
    refine ⟨_, rfl, congrArg _ (check_hostSend ws fun x => ?_)⟩
    rfl
  | feed32 c =>
    refine ⟨_, rfl, congrArg _ (check_hostSend ws fun x => ?_)⟩
    rfl
  | bdrawDf c range => exact ⟨_, rfl, congrArg _ (bdraw_hostSend ws .df c range)⟩
  | bdrawDa c range => exact ⟨_, rfl, congrArg _ (bdraw_hostSend ws .da c range)⟩
  | cvtm x => exact ⟨_, rfl, rfl⟩
  | cvtb x => exact ⟨_, rfl, rfl⟩
  | nextdM c => exact ⟨_, rfl, congrArg _ (drawConverted_hostSend ws convMul c)⟩
  | nextdB c => exact ⟨_, rfl, congrArg _ (drawConverted_hostSend ws convBit c)⟩
  | rdst c =>
    refine ⟨_, rfl, congrArg _ (check_hostSend ws fun x => ?_)⟩
    rfl

/-- A step that is no wait does the same with more words in the port, and leaves them there. -/
theorem step_hostSend (h : step s = .next t) (hbusy : s.Busy) :
    step (s.hostSend ws) = .next (t.hostSend ws) := by
  cases hr : s.resetIn with
  | true =>
    obtain rfl := Host.Outcome.next.inj ((step_of_reset hr).symm.trans h)
    exact step_of_reset (s := s.hostSend ws) hr
  | false =>
    cases hp : s.phase with
    | loop c range th m v =>
      rw [step_of_loop hr hp] at h
      obtain ⟨x, hx, hf, rfl⟩ := bdrawLoop_eq_next_iff.mp h
      rw [step_of_loop (s := s.hostSend ws) hr hp, ← bdrawRedraw_hostSend]
      exact bdrawLoop_eq_next_iff.mpr ⟨x, hx, hf, rfl⟩
    | idle =>
      cases hd : decode s.inbuf with
      | incomplete =>
        obtain rfl := Host.Outcome.next.inj ((step_of_incomplete hr hp hd).symm.trans h)
        have hport : s.port ≠ [] := by simpa [State.Busy, hr, hp, hd] using hbusy
        obtain ⟨w, rest, hw⟩ := List.exists_cons_of_ne_nil hport
        have hw' : (s.hostSend ws).port = w :: (rest ++ ws) := by simp [hw]
        rw [step_of_incomplete (s := s.hostSend ws) hr hp hd, State.receive_of_port_cons hw,
          State.receive_of_port_cons hw']
        rfl
      | illegal why rest =>
        obtain rfl := Host.Outcome.next.inj ((step_of_illegal hr hp hd).symm.trans h)
        exact step_of_illegal (s := s.hostSend ws) hr hp hd
      | command i rest =>
        obtain ⟨u, hu, hsend⟩ := exec_hostSend ws i (s.consume rest)
        obtain rfl := Host.Outcome.next.inj (hu.symm.trans ((step_of_command hr hp hd).symm.trans h))
        exact (step_of_command (s := s.hostSend ws) hr hp hd).trans hsend

/-- A run of steps without a wait does the same with more words in the port. -/
theorem stepsFrom_hostSend {n : Nat} (h : stepsFrom n s = .next t)
    (hbusy : ∀ m, m < n → ∀ u, stepsFrom m s = .next u → u.Busy) :
    stepsFrom n (s.hostSend ws) = .next (t.hostSend ws) := by
  induction n generalizing s with
  | zero =>
    obtain rfl := Host.Outcome.next.inj h
    rfl
  | succ n ih =>
    cases hs : step s with
    | fault r => simp [stepsFrom, hs] at h
    | refused r => simp [stepsFrom, hs] at h
    | next u =>
      rw [stepsFrom_succ_of_step hs] at h
      rw [stepsFrom_succ_of_step (step_hostSend ws hs (hbusy 0 n.succ_pos s rfl))]
      refine ih h fun m hm u' hu' => hbusy (m + 1) (Nat.succ_lt_succ hm) u' ?_
      rw [stepsFrom_succ_of_step hs, hu']

end Send

/-! ### Responses along a run -/

/-- A step withdraws no response. -/
theorem step_responses_prefix (h : step s = .next t) : s.responses <+: t.responses := by
  rcases oneResponseWhenACommandEnds s t h with ⟨_, _, r, hr, _⟩ | ⟨hr, _⟩
  · exact ⟨[r], hr.symm⟩
  · exact ⟨[], by rw [hr, List.append_nil]⟩

theorem stepsFrom_responses_prefix {n : Nat} (h : stepsFrom n s = .next t) :
    s.responses <+: t.responses := by
  induction n generalizing s with
  | zero =>
    obtain rfl := Host.Outcome.next.inj h
    exact List.prefix_rfl
  | succ n ih =>
    cases hs : step s with
    | fault r => simp [stepsFrom, hs] at h
    | refused r => simp [stepsFrom, hs] at h
    | next u =>
      rw [stepsFrom_succ_of_step hs] at h
      exact (step_responses_prefix hs).trans (ih h)

/-! ### A run after a run -/

section Following

variable {r : Run} {n : Nat} {more : List (List Word)}

theorem Run.start_append (launch : State) (first more : List (List Word)) :
    (Run.mk launch (first ++ more)).start = (Run.mk launch first).start.hostSend more.flatten := by
  simp [Run.start, State.hostSend]

/-- Before a run is first over, the block does not wait: a wait would be for ever. -/
theorem Run.busy_before_over (ht : r.after n = .next t) (hover : r.isOver t = true)
    (hfirst : ∀ m, m < n → r.observation m = none) {m : Nat} (hm : m < n) {u : State}
    (hu : r.after m = .next u) : u.Busy := by
  by_contra hwait
  have hstay : r.after (m + (n - m)) = .next u :=
    (stepsFrom_add hu (n - m)).trans (stepsFrom_of_step_self (step_self_of_not_busy hwait) _)
  rw [Nat.add_sub_cancel' hm.le, ht] at hstay
  obtain rfl := Host.Outcome.next.inj hstay
  have hsome := (r.observation_eq_some_iff m (r.observe t)).mpr ⟨t, hu, hover, rfl⟩
  rw [hfirst m hm] at hsome
  cases hsome

/-- The commands after a run begin when it is first over, in the state it leaves. -/
theorem Run.after_append (ht : r.after n = .next t) (hover : r.isOver t = true)
    (hfirst : ∀ m, m < n → r.observation m = none) (k : Nat) :
    (Run.mk r.launch (r.commands ++ more)).after (n + k) = (Run.mk t more).after k := by
  have hrun : (Run.mk r.launch (r.commands ++ more)).after n = .next (Run.mk t more).start := by
    rw [Run.after, Run.start_append]
    exact stepsFrom_hostSend more.flatten ht fun m hm u hu =>
      Run.busy_before_over ht hover hfirst hm hu
  exact stepsFrom_add hrun k

/-- A run over from `t` is the end of the run that reached `t` and went on. -/
theorem Run.isOver_append {u : State} (hover : r.isOver t = true)
    (hu : (Run.mk t more).isOver u = true) :
    (Run.mk r.launch (r.commands ++ more)).isOver u = true := by
  obtain ⟨hready, k, hk, hlen⟩ := (r.isOver_iff t).mp hover
  obtain ⟨huready, j, hj, hulen⟩ := ((Run.mk t more).isOver_iff u).mp hu
  obtain rfl : 0 = j := Option.some.inj ((State.owed_of_ready hready).symm.trans hj)
  refine (Run.isOver_iff _ u).mpr ⟨huready, k, hk, ?_⟩
  simp only [List.length_append] at hulen ⊢
  omega

/-- The responses of the second run follow those of the first. -/
theorem Run.observe_append {u : State} (hover : r.isOver t = true)
    (hprefix : t.responses <+: u.responses) :
    (Run.mk r.launch (r.commands ++ more)).observe u =
      { (Run.mk t more).observe u with
        responses := (r.observe t).responses ++ ((Run.mk t more).observe u).responses } := by
  obtain ⟨_, k, _, hlen⟩ := (r.isOver_iff t).mp hover
  obtain ⟨later, hlater⟩ := hprefix
  have hle : r.launch.responses.length ≤ t.responses.length := by omega
  simp [Run.observe, ← hlater, List.drop_append_of_le_length hle]

theorem Run.observation_append (ht : r.after n = .next t) (hover : r.isOver t = true)
    (hfirst : ∀ m, m < n → r.observation m = none) {k : Nat} {o : Observation}
    (ho : (Run.mk t more).observation k = some o) :
    (Run.mk r.launch (r.commands ++ more)).observation (n + k) =
      some { o with responses := (r.observe t).responses ++ o.responses } := by
  obtain ⟨u, hu, huover, rfl⟩ := ((Run.mk t more).observation_eq_some_iff k o).mp ho
  have hprefix : t.responses <+: u.responses :=
    stepsFrom_responses_prefix (s := (Run.mk t more).start) hu
  exact (Run.observation_eq_some_iff _ _ _).mpr ⟨u, (Run.after_append ht hover hfirst k).trans hu,
    Run.isOver_append hover huover, Run.observe_append hover hprefix⟩

end Following

end Sys2Proof.Machine
end

section
/-!
PROOF of O60, first clause, and O60.  The responses emitted and those still owed have a constant sum
along a run (`Owes`); outside a loop each step takes a word from the port or a command from INBUF
(`wordsLeft`), so a run ends, or it stays in one loop for ever.
-/

namespace Sys2Proof.Machine

variable {s t : State} {total : Nat}

/-! ### What a step does to the words and the responses -/

/-- The steps of a run with no reset pending, in the words they take and the responses they give. -/
inductive RunStep (s t : State) : Prop where
  /-- the intake of a word, or a wait -/
  | received (hp : s.phase = .idle) (hd : decode s.inbuf = .incomplete) (ht : t = s.receive)
  /-- the execution of a command, legal or not -/
  | decoded (hp : s.phase = .idle) (hd : Decodes s.inbuf t.inbuf) (hport : t.port = s.port)
    (ht : AnswersOrLoops s t)
  /-- a step of the rejection loop -/
  | looped (hp : s.phase ≠ .idle) (hinbuf : t.inbuf = s.inbuf) (hport : t.port = s.port)
    (ht : AnswersOrLoops s t)

theorem StepResult.runStep (h : StepResult s t) (hr : s.resetIn = false) :
    RunStep s t ∧ t.resetIn = false := by
  cases h with
  | reset hreset => exact absurd (hr.symm.trans hreset) Bool.false_ne_true
  | redraw _ c range th m v x hp hx hf =>
    have hframe := bdrawRedraw_frame v c range th x s
    exact ⟨.looped (by simp [hp]) hframe.inbuf hframe.port
      (bdrawRedraw_answersOrLoops v c range th x s), hframe.resetIn.trans hr⟩
  | received _ hp hd => exact ⟨.received hp hd rfl, s.receive_resetIn.trans hr⟩
  | illegal _ hp why rest hd => exact ⟨.decoded hp (.inr ⟨why, hd⟩) rfl (.inl ⟨_, rfl, rfl⟩), hr⟩
  | command _ hp i rest hd t ht =>
    have hframe := ht.frame
    have hd' : Decodes s.inbuf t.inbuf := .inl ⟨i, by rw [hframe.inbuf]; exact hd⟩
    exact ⟨.decoded hp hd' hframe.port ht.answersOrLoops, hframe.resetIn.trans hr⟩

/-- The responses emitted and owed: what a run from `s` will have emitted when it is over. -/
def State.pledged (s : State) : Option Nat :=
  s.waiting.map (s.responses.length + s.phase.executing + ·)

theorem State.pledged_eq_some_iff :
    s.pledged = some total ↔ ∃ k, s.owed = some k ∧ total = s.responses.length + k := by
  simp only [State.pledged, State.owed, Option.map_eq_some_iff]
  constructor
  · rintro ⟨n, hn, rfl⟩
    exact ⟨_, ⟨n, hn, rfl⟩, Nat.add_assoc _ _ _⟩
  · rintro ⟨_, ⟨n, hn, rfl⟩, rfl⟩
    exact ⟨n, hn, Nat.add_assoc _ _ _⟩

/-- A step that answers or loops has emitted, or executes, one command more than was emitted. -/
theorem AnswersOrLoops.count (h : AnswersOrLoops s t) :
    t.responses.length + t.phase.executing = s.responses.length + 1 := by
  rcases h with ⟨r, hr, hp⟩ | ⟨hr, c, range, th, m, v, hp⟩ <;> simp [hr, hp, Phase.executing]

/-- Decoding takes one command off the words. -/
theorem countCommands_of_decodes {ws rest : List Word} (hd : Decodes ws rest) (after : List Word) :
    countCommands 0 (ws ++ after) = (countCommands 0 (rest ++ after)).map (· + 1) := by
  obtain ⟨h, ps, rfl, hlen⟩ := hd.split
  have hcomplete : isCompleteCommand (h :: ps) = true :=
    (isCompleteCommand_iff _).mpr ⟨h, ps, rfl, hlen⟩
  rw [← countCommands_command hcomplete, List.cons_append, List.cons_append, List.append_assoc]

/-- Each response emitted is one owed less (R29). -/
theorem RunStep.pledged_eq (h : RunStep s t) : t.pledged = s.pledged := by
  cases h with
  | received hp hd ht => simp [State.pledged, State.waiting, ht, s.receive_inbuf_port]
  | decoded hp hd hport ht =>
    rw [State.pledged, State.pledged, State.waiting, State.waiting, countCommands_of_decodes hd,
      hport, ht.count, hp, Option.map_map]
    congr 1
    funext n
    simp only [Function.comp, Phase.executing]
    omega
  | looped hp hinbuf hport ht =>
    have hloop : s.phase.executing = 1 := by
      cases hphase : s.phase with
      | idle => exact absurd hphase hp
      | loop => rfl
    rw [State.pledged, State.pledged, State.waiting, State.waiting, hinbuf, hport, ht.count, hloop]

/-! ### The invariant of a run -/

/-- A state of a run that will have emitted `total` responses when it is over. -/
structure Owes (total : Nat) (s : State) : Prop where
  inv : s.Inv
  resetIn : s.resetIn = false
  pledged : s.pledged = some total

theorem Owes.step (h : Owes total s) : ∃ t, step s = .next t ∧ RunStep s t ∧ Owes total t := by
  obtain ⟨t, ht⟩ := h.inv.step_answers
  obtain ⟨hrun, hr⟩ := (step_result ht).runStep h.resetIn
  exact ⟨t, ht, hrun, (step_result ht).inv h.inv, hr, hrun.pledged_eq.trans h.pledged⟩

/-- Between commands all that is owed has been emitted. -/
theorem Owes.responses_of_ready (h : Owes total s) (hready : s.ready = true) :
    s.responses.length = total := by
  obtain ⟨k, hk, rfl⟩ := State.pledged_eq_some_iff.mp h.pledged
  obtain rfl : 0 = k := Option.some.inj ((State.owed_of_ready hready).symm.trans hk)
  rfl

/-- The words not yet decoded; one in the port has still to be taken into INBUF. -/
def State.wordsLeft (s : State) : Nat := 2 * s.port.length + s.inbuf.length

/-- Outside the loop a step takes a word or decodes a command, unless the run is over: all that
waits is whole, so the block never waits for a word. -/
theorem Owes.wordsLeft_lt (h : Owes total s) (hp : s.phase = .idle) (hready : ¬ s.ready = true)
    (ht : RunStep s t) : t.wordsLeft < s.wordsLeft := by
  cases ht with
  | looped hp' => exact absurd hp hp'
  | decoded _ hd hport =>
    obtain ⟨w, ps, hinbuf, _⟩ := hd.split
    simp only [State.wordsLeft, hport, hinbuf, List.length_cons, List.length_append]
    omega
  | received _ hd ht =>
    cases hport : s.port with
    | cons w ws =>
      rw [ht, State.receive_of_port_cons hport]
      simp only [State.wordsLeft, hport, List.length_cons, List.length_append, List.length_nil]
      omega
    | nil =>
      have hne : s.inbuf ≠ [] := fun he => hready (s.ready_iff.mpr ⟨hp, he, hport, h.resetIn⟩)
      have hnone : s.pledged = none := by
        simp [State.pledged, State.waiting, hport, countCommands_of_incomplete hne hd]
      exact absurd (hnone.symm.trans h.pledged) (by simp)

/-! ### A run ends or hangs -/

/-- After some number of steps the run is over, or from some step on it is inside a loop. -/
def EndsOrHangs (total : Nat) (s : State) : Prop :=
  (∃ n t, stepsFrom n s = .next t ∧ Owes total t ∧ t.ready = true) ∨
    ∃ N, ∀ n, N ≤ n →
      ∃ t c range th m v, stepsFrom n s = .next t ∧ t.phase = .loop c range th m v

theorem EndsOrHangs.of_stepsFrom {k : Nat} (hk : stepsFrom k s = .next t)
    (h : EndsOrHangs total t) : EndsOrHangs total s := by
  rcases h with ⟨n, u, hn, hu⟩ | ⟨N, hN⟩
  · exact .inl ⟨k + n, u, (stepsFrom_add hk n).trans hn, hu⟩
  · refine .inr ⟨k + N, fun n hn => ?_⟩
    obtain ⟨j, rfl⟩ := Nat.exists_eq_add_of_le hn
    obtain ⟨u, c, range, th, m, v, hu, hp⟩ := hN (N + j) (Nat.le_add_right N j)
    exact ⟨u, c, range, th, m, v, by rw [Nat.add_assoc, stepsFrom_add hk, hu], hp⟩

/-- From inside a loop the run has left it within `n` steps, or is inside a loop after `n` steps; no
word is taken meanwhile (R303). -/
theorem Owes.leaves_or_loops (h : Owes total s) (hp : s.phase ≠ .idle) (n : Nat) :
    (∃ k t, stepsFrom k s = .next t ∧ Owes total t ∧ t.phase = .idle ∧
      t.wordsLeft = s.wordsLeft) ∨
    (∃ t, stepsFrom n s = .next t ∧ Owes total t ∧ t.phase ≠ .idle ∧
      t.wordsLeft = s.wordsLeft) := by
  induction n with
  | zero => exact .inr ⟨s, rfl, h, hp, rfl⟩
  | succ n ih =>
    rcases ih with hleft | ⟨t, ht, howes, hloop, hwords⟩
    · exact .inl hleft
    · obtain ⟨u, hu, hstep, howes'⟩ := howes.step
      have hrun : stepsFrom (n + 1) s = .next u := (stepsFrom_succ_of_run ht).trans hu
      have hwords' : u.wordsLeft = s.wordsLeft := by
        cases hstep with
        | received hidle => exact absurd hidle hloop
        | decoded hidle => exact absurd hidle hloop
        | looped _ hinbuf hport =>
          rw [← hwords, State.wordsLeft, State.wordsLeft, hinbuf, hport]
      by_cases hidle : u.phase = .idle
      · exact .inl ⟨n + 1, u, hrun, howes', hidle, hwords'⟩
      · exact .inr ⟨u, hrun, howes', hidle, hwords'⟩

theorem Owes.endsOrHangs_of_idle (h : Owes total s) (hp : s.phase = .idle)
    (ih : ∀ t, Owes total t → t.wordsLeft < s.wordsLeft → EndsOrHangs total t) :
    EndsOrHangs total s := by
  by_cases hready : s.ready = true
  · exact .inl ⟨0, s, rfl, h, hready⟩
  · obtain ⟨t, ht, hstep, howes⟩ := h.step
    exact .of_stepsFrom (k := 1) (stepsFrom_succ_of_step ht)
      (ih t howes (h.wordsLeft_lt hp hready hstep))

/-- By induction on the words left: the loop either hangs or is left with as many words. -/
theorem Owes.endsOrHangs (h : Owes total s) : EndsOrHangs total s := by
  induction hn : s.wordsLeft using Nat.strongRecOn generalizing s with
  | _ n ih =>
    subst hn
    by_cases hp : s.phase = .idle
    · exact h.endsOrHangs_of_idle hp fun t ht hlt => ih _ hlt ht rfl
    · by_cases hleaves : ∃ k t, stepsFrom k s = .next t ∧ Owes total t ∧ t.phase = .idle ∧
          t.wordsLeft = s.wordsLeft
      · obtain ⟨k, t, hk, ht, hidle, hwords⟩ := hleaves
        exact .of_stepsFrom hk (ht.endsOrHangs_of_idle hidle fun u hu hlt =>
          ih _ (hwords ▸ hlt) hu rfl)
      · refine .inr ⟨0, fun n _ => ?_⟩
        obtain ⟨t, ht, _, hloop, _⟩ := (h.leaves_or_loops hp n).resolve_left hleaves
        cases hphase : t.phase with
        | idle => exact absurd hphase hloop
        | loop c range th m v => exact ⟨t, c, range, th, m, v, ht, hphase⟩

/-- The launch state of a run, with the words of its commands queued, owes what it owed and one
response for each command. -/
theorem Run.owes_start {r : Run} {k : Nat} (hwf : r.WellFormed) (hinv : r.launch.Inv)
    (howed : r.launch.owed = some k) :
    Owes (r.launch.responses.length + k + r.commands.length) r.start := by
  obtain ⟨hreset, hcomplete⟩ := hwf
  obtain ⟨n, hn, rfl⟩ := (State.owed_eq_some_iff r.launch k).mp howed
  have hwaiting : r.start.waiting = some (n + r.commands.length) := by
    have hcount := countCommands_append hn r.commands.flatten
    rw [countCommands_flatten hcomplete, List.append_assoc] at hcount
    exact hcount
  refine ⟨hinv.hostSend _, hreset, ?_⟩
  rw [State.pledged, hwaiting]
  simp only [Run.start, State.hostSend_responses, State.hostSend_phase, Option.map_some,
    Option.some.injEq]
  omega

/-- Settles O60: a run ends or hangs by induction on the words left, runs follow one another because
the first never waits before it is over, and a step that is no wait does not read the port's end. -/
theorem runOfCompleteCommandsEndsOrHangs : Obligations.RunOfCompleteCommandsEndsOrHangs := by
  refine ⟨fun r k hwf hinv howed => ?_, fun r more n t ht hover hfirst => ?_, ?_⟩
  · rcases (Run.owes_start hwf hinv howed).endsOrHangs with ⟨n, t, ht, howes, hready⟩ | hhangs
    · have hlen := howes.responses_of_ready hready
      refine .inl ⟨n, t, ht, (r.isOver_iff t).mpr ⟨hready, k, howed, hlen⟩, howes.inv, ?_⟩
      rw [Run.observe, List.length_drop, hlen]
      omega
    · exact .inr hhangs
  · exact ⟨Run.after_append ht hover hfirst, fun k o => Run.observation_append ht hover hfirst⟩
  · exact fun s t ws h hbusy => step_hostSend ws h hbusy

end Sys2Proof.Machine
end

section
/-!
PROOF of O1 to O6, O17 and O40: the decoder takes apart exactly what the encoder builds
(`decode_eq_command_iff`), and the one test of a header, `rejectHeader`, is read in two more ways:
as the rows of R75 (`accepted_iff_match_row`) and as the conditions of R80 (`illegalHeader_iff`).  A
response header is laid out as a command header with STATUS for OPC and NR for NW.
-/

namespace Sys2Proof

/-! ### One spelling of a command -/

/-- A header that passes checks 1 to 7, with the payload it announces, is the encoding of the
command its row reads: the fields that the row does not read are zero (R73, R74). -/
theorem encode_of_readRow {h : Word} {p : List Word} {i : Instr} (hn : rejectHeader h = none)
    (hp : p.length = (nwOf h).toNat) (hi : readRow h p = .ok i) : encode i = h :: p := by
  obtain ⟨hopc, hrsv, halg, himm, hnw, -, hctx⟩ := rejectHeader_eq_none_iff.mp hn
  have hfields := mkHeader_fields hrsv
  have hcount : BitVec.ofNat 4 p.length = nwOf h := by simp [hp]
  have hnone : nwOf h = 0 → p = [] := fun hz => by simpa [hz] using hp
  have hone : nwOf h = 1 → [p.head?.getD 0#64] = p := fun ho => by
    obtain ⟨x, rfl⟩ := List.length_eq_one_iff.mp (by simpa [ho] using hp)
    rfl
  unfold readRow at hi
  rcases opcode_cases hopc with ho | ho | ho | ho | ho | ho | ho | ho | ho | ho <;>
    simp [ho, rowPayloadCount] at hi halg himm hnw hctx hfields
  · cases ha : Alg.ofCode (algOf h) with
    | none => simp [ha] at hi
    | some a =>
      obtain rfl : Instr.seed (ctxOf h) a p = i := by simpa [ha] using hi
      simpa [encode, encodeHeader, Instr.payload, Alg.code_of_ofCode ha, hcount, himm] using hfields
  all_goals
    subst hi
    simpa [encode, encodeHeader, Instr.payload, halg, hnw, himm, hnone, hctx, hone] using hfields

/-- The decoder reads a command from exactly the words that begin with its encoding (R73, R83). -/
theorem decode_eq_command_iff {ws more : List Word} {i : Instr} :
    decode ws = .command i more ↔ i.WellFormed ∧ ws = encode i ++ more := by
  constructor
  · intro hd
    rcases decode_cases ws with hinc | ⟨h, ps, rfl, hle, ⟨j, hn, hj, hcmd⟩ | ⟨why, _, hill⟩⟩
    · simp [hinc] at hd
    · obtain ⟨rfl, rfl⟩ : j = i ∧ ps.drop (nwOf h).toNat = more := by simpa [hcmd] using hd
      have hlen := List.length_take_of_le hle
      have henc := encode_of_readRow hn hlen hj
      have hpay : j.payload = ps.take (nwOf h).toNat := (List.cons.inj henc).2
      refine ⟨?_, by simp [henc]⟩
      have := (nwOf h).isLt
      rw [Instr.WellFormed, hpay, hlen]
      omega
    · simp [hill] at hd
  · rintro ⟨hi, rfl⟩
    exact decode_encode_append hi more

/-- Settles O1: the words after the encoding do not matter to the decoder. -/
theorem decodeInvertsEncode : Obligations.DecodeInvertsEncode :=
  fun _ more hi => decode_encode_append hi more

/-- Settles O2: the fields of an accepted header that its row does not use are zero, and the others
are read into the command. -/
theorem decodedCommandReencodes : Obligations.DecodedCommandReencodes :=
  fun _ _ _ hd => decode_eq_command_iff.mp hd

/-! ### The length of a command -/

section Complete

variable {h : Word} {ps : List Word} (hle : (nwOf h).toNat ≤ ps.length)
include hle

/-- A complete command whose header passes checks 1 to 7 is decoded to a command (R74). -/
theorem decode_of_accepted (hn : rejectHeader h = none) :
    ∃ i, decode (h :: ps) = .command i (ps.drop (nwOf h).toNat) := by
  obtain ⟨i, hi⟩ := readRow_of_accepted (ps.take (nwOf h).toNat) hn
  exact ⟨i, by simp [decode, decodeHeader, hn, hi, Nat.not_lt.mpr hle]⟩

/-- A complete command whose header fails one of checks 1 to 7 is illegal (R80). -/
theorem decode_of_rejected {why : Reject} (hn : rejectHeader h = some why) :
    decode (h :: ps) = .illegal why (ps.drop (nwOf h).toNat) := by
  simp [decode, decodeHeader, hn, Nat.not_lt.mpr hle]

end Complete

/-- Settles O4: the decoder waits for the payload words that the header announces, and takes as
many whether or not the header is a command's. -/
theorem commandLengthIsOnePlusPayloadCount : Obligations.CommandLengthIsOnePlusPayloadCount := by
  refine ⟨rfl, fun h ps => ⟨(decode_cons_eq_incomplete_iff h ps).mpr, fun hle => ?_⟩⟩
  cases hn : rejectHeader h with
  | none => exact .inl (decode_of_accepted hle hn)
  | some why => exact .inr ⟨why, decode_of_rejected hle hn⟩

/-! ### The rows of the match and mask table -/

/-- A field that a mask keeps or drops as a whole matches a value that is zero where it is
dropped. -/
theorem and_ite_allOnes_eq_iff {n : Nat} {p : Prop} [Decidable p] (x : BitVec n) {m : BitVec n}
    (hm : ¬ p → m = 0) : x &&& (if p then BitVec.allOnes n else 0) = m ↔ (p → x = m) := by
  by_cases hp : p
  · simp [hp]
  · simp [hp, hm hp]

/-- A mask acts on a header field by field (R72, R75). -/
theorem and_eq_iff_fields (h k m : Word) : h &&& k = m ↔
    opcOf h &&& opcOf k = opcOf m ∧ ctxOf h &&& ctxOf k = ctxOf m ∧
    algOf h &&& algOf k = algOf m ∧ nwOf h &&& nwOf k = nwOf m ∧
    rsvOf h &&& rsvOf k = rsvOf m ∧ immOf h &&& immOf k = immOf m := by
  constructor
  · rintro rfl
    simp [opcOf, ctxOf, algOf, nwOf, rsvOf, immOf, BitVec.extractLsb'_and]
  · rintro ⟨h1, h2, h3, h4, h5, h6⟩
    apply word_eq_of_fields <;>
      simpa [opcOf, ctxOf, algOf, nwOf, rsvOf, immOf, BitVec.extractLsb'_and]

/-- The masks of the table keep the opcode, and of the other fields those whose value the row
fixes. -/
theorem opTable_mask : ∀ r ∈ opTable,
    opcOf r.maskBits = BitVec.allOnes 8 ∧
    ctxOf r.maskBits = (if opcOf r.matchBits = 0x06 ∨ opcOf r.matchBits = 0x07 then
      BitVec.allOnes 4 else 0) ∧
    algOf r.maskBits = (if opcOf r.matchBits ≠ 0x01 then BitVec.allOnes 4 else 0) ∧
    nwOf r.maskBits = (if opcOf r.matchBits ≠ 0x01 then BitVec.allOnes 4 else 0) ∧
    rsvOf r.maskBits = BitVec.allOnes 12 ∧
    immOf r.maskBits = (if opcOf r.matchBits ≠ 0x04 ∧ opcOf r.matchBits ≠ 0x05 then
      BitVec.allOnes 32 else 0) := by decide

/-- The match values of the table are zero outside the opcode and the payload count. -/
theorem opTable_match : ∀ r ∈ opTable,
    r.matchBits = mkHeader (opcOf r.matchBits) 0 0 (rowPayloadCount (opcOf r.matchBits)) 0 := by
  decide

/-- No row has an opcode that check 1 refuses (R74). -/
theorem opTable_opcode_defined : ∀ r ∈ opTable,
    ¬ (opcOf r.matchBits = 0x00 ∨ opcOf r.matchBits > 0x0A) := by decide

theorem mnemonic_eq_seed_iff : ∀ r ∈ opTable,
    r.mnemonic = "SEED" ↔ opcOf r.matchBits = 0x01 := by decide

theorem opTable_opcode_injective : ∀ r ∈ opTable, ∀ q ∈ opTable,
    opcOf r.matchBits = opcOf q.matchBits → r = q := by decide

/-- Every opcode that check 1 lets through has a row (R74). -/
theorem exists_row_of_opcode {o : BitVec 8} (ho : ¬ (o = 0x00 ∨ o > 0x0A)) :
    ∃ r ∈ opTable, opcOf r.matchBits = o := by
  revert o; decide

/-- The row with an instruction's mnemonic is the one with its opcode. -/
theorem mnemonic_eq_iff (i : Instr) : ∀ r ∈ opTable,
    i.mnemonic = r.mnemonic ↔ opcOf (encodeHeader i) = opcOf r.matchBits := by
  cases i <;> simp only [encodeHeader, opcOf_mkHeader, Instr.mnemonic] <;> decide

section Row

variable {r : OpRow} (hr : r ∈ opTable) (h : Word)
include hr

/-- A header matches a row when it has the row's opcode and passes checks 2 to 5 and 7 (R75). -/
theorem match_row_iff :
    h &&& r.maskBits = r.matchBits ↔ opcOf h = opcOf r.matchBits ∧
      (opcOf h = 0x06 ∨ opcOf h = 0x07 → ctxOf h = 0) ∧
      (opcOf h ≠ 0x01 → algOf h = 0) ∧ (opcOf h ≠ 0x01 → nwOf h = rowPayloadCount (opcOf h)) ∧
      rsvOf h = 0 ∧ (opcOf h ≠ 0x04 ∧ opcOf h ≠ 0x05 → immOf h = 0) := by
  obtain ⟨hopc, hctx, halg, hnw, hrsv, himm⟩ := opTable_mask r hr
  have hmatch := opTable_match r hr
  generalize opcOf r.matchBits = o at *
  rw [hmatch, and_eq_iff_fields, hopc, hctx, halg, hnw, hrsv, himm]
  simp only [opcOf_mkHeader, ctxOf_mkHeader, algOf_mkHeader, nwOf_mkHeader, rsvOf_mkHeader,
    immOf_mkHeader, BitVec.and_allOnes]
  refine and_congr_right fun ho => ?_
  subst ho
  rw [and_ite_allOnes_eq_iff _ fun _ => rfl, and_ite_allOnes_eq_iff _ fun _ => rfl,
    and_ite_allOnes_eq_iff _ ?_, and_ite_allOnes_eq_iff _ fun _ => rfl]
  intro ho
  simp [not_not.mp ho, rowPayloadCount]

/-- The rows of R75, with the proviso for SEED, are the checks 1 to 7 of R272. -/
theorem accepted_iff_match_row :
    rejectHeader h = none ∧ opcOf h = opcOf r.matchBits ↔
      h &&& r.maskBits = r.matchBits ∧ (r.mnemonic = "SEED" → (algOf h).toNat ≤ 8) := by
  rw [rejectHeader_eq_none_iff, match_row_iff hr, mnemonic_eq_seed_iff r hr]
  constructor
  · rintro ⟨⟨-, hrsv, halg, himm, hnw, hcode, hctx⟩, ho⟩
    exact ⟨⟨ho, hctx, halg, hnw, hrsv, fun hb => himm hb.1 hb.2⟩, fun hs => hcode (ho.trans hs)⟩
  · rintro ⟨⟨ho, hctx, halg, hnw, hrsv, himm⟩, hcode⟩
    exact ⟨⟨ho ▸ opTable_opcode_defined r hr, hrsv, halg, fun h4 h5 => himm ⟨h4, h5⟩, hnw,
      fun hs => hcode (ho ▸ hs), hctx⟩, ho⟩

end Row

/-- Settles O3: a header matches a row when it has the row's opcode and is accepted, and each
accepted opcode has one row. -/
theorem headerDecodesByMatchAndMask : Obligations.HeaderDecodesByMatchAndMask := by
  refine ⟨fun h ps hle r hr => ?_, fun h ps hle hno => ?_, fun r hr q hq h hrh hqh => ?_⟩
  · rw [← accepted_iff_match_row hr h]
    constructor
    · rintro ⟨i, more, hd, hi⟩
      obtain ⟨rfl, -⟩ := List.cons.inj (decode_eq_command_iff.mp hd).2
      exact ⟨rejectHeader_encodeHeader i, (mnemonic_eq_iff i r hr).mp hi⟩
    · rintro ⟨hn, hopc⟩
      obtain ⟨i, hd⟩ := decode_of_accepted hle hn
      obtain ⟨rfl, -⟩ := List.cons.inj (decode_eq_command_iff.mp hd).2
      exact ⟨i, _, hd, (mnemonic_eq_iff i r hr).mpr hopc⟩
  · cases hn : rejectHeader h with
    | none =>
      obtain ⟨r, hr, ho⟩ := exists_row_of_opcode (rejectHeader_eq_none_iff.mp hn).1
      exact absurd ((accepted_iff_match_row hr h).mp ⟨hn, ho.symm⟩).1 (hno r hr)
    | some why => exact ⟨why, _, decode_of_rejected hle hn⟩
  · exact opTable_opcode_injective r hr q hq
      (((match_row_iff hr h).mp hrh).1.symm.trans ((match_row_iff hq h).mp hqh).1)

/-- Settles O5: the decoder is run on each word sequence. -/
theorem specWordsDecodeToTheirCommands : Obligations.SpecWordsDecodeToTheirCommands := by
  unfold Obligations.SpecWordsDecodeToTheirCommands
  decide

end Sys2Proof

namespace Sys2Proof.Machine

/-! ### Illegal commands -/

theorem rowPayloadCount_toNat (o : BitVec 8) :
    (rowPayloadCount o).toNat = if o.toNat = 0x06 ∨ o.toNat = 0x07 then 1 else 0 := by
  revert o; decide

/-- The conditions of R80 are that one of checks 1 to 7 of R272 fails.  Both lists compare the
values of fields; R80 only orders them otherwise and splits the payload count by CVTM and CVTB. -/
theorem illegalHeader_iff (h : Word) :
    Sys2Proof.Claims.IllegalHeader h ↔ rejectHeader h ≠ none := by
  rw [Ne, rejectHeader_eq_none_iff]
  unfold Sys2Proof.Claims.IllegalHeader
  simp only [ne_eq, BitVec.toNat_eq, gt_iff_lt, BitVec.lt_def, BitVec.le_def, rowPayloadCount_toNat,
    BitVec.ofNat_eq_ofNat, BitVec.toNat_ofNat, Nat.reducePow, Nat.reduceMod]
  split <;> omega

/-- Settles O6: an illegal header is one that fails a check, and the step answers what the decoder
says of it. -/
theorem illegalCommandIsAnsweredAndConsumed : Obligations.IllegalCommandIsAnsweredAndConsumed := by
  intro s h ps hr hp hinbuf hlen
  have hdrop : ps.drop (nwOf h).toNat = [] := by simp [← hlen]
  rw [illegalHeader_iff, hinbuf]
  cases hn : rejectHeader h with
  | none =>
    obtain ⟨i, hd⟩ := decode_of_accepted hlen.ge hn
    simp [hd]
  | some why =>
    have hd := decode_of_rejected hlen.ge hn
    rw [hdrop] at hd
    refine ⟨by simp [hd], fun _ => ?_⟩
    rw [step_of_illegal hr hp (hinbuf ▸ hd)]
    simp [State.finish, State.consume, hp]

/-! ### Responses -/

/-- A response header has STATUS and NR where a command header has OPC and NW (R72, R78). -/
theorem Response.header_eq_mkHeader (r : Response) :
    r.header = mkHeader r.status.code 0 0 (BitVec.ofNat 4 r.results.length) 0 := by
  apply BitVec.eq_of_toNat_eq
  simp only [Response.header, mkHeader, BitVec.toNat_append]
  simp [← Nat.shiftLeft_add]

theorem Response.header_toNat (r : Response) : r.header.toNat =
    r.status.code.toNat * 2 ^ 56 + (r.results.length % 16) * 2 ^ 44 := by
  simp [Response.header_eq_mkHeader, mkHeader_toNat]

theorem Status.code_le (st : Status) : st.code.toNat ≤ 0x06 := by cases st <;> decide

/-- Settles O17: a response header has its fields where a command header has OPC and NW, and zero
elsewhere. -/
theorem responseHeaderLayout : Obligations.ResponseHeaderLayout := by
  refine ⟨rfl, rfl, rfl, rfl, rfl, rfl, rfl, fun r hlen =>
    ⟨rfl, ?_, ?_, ?_, ?_, r.status.code_le⟩⟩
  · rw [Response.header_eq_mkHeader]
    exact opcOf_mkHeader _ _ _ _ _
  · apply BitVec.eq_of_toNat_eq
    simp [r.header_toNat, Nat.shiftRight_eq_div_pow]
    omega
  · rw [Response.header_eq_mkHeader]
    refine (congrArg BitVec.toNat (nwOf_mkHeader _ _ _ _ _)).trans ?_
    simp
    omega
  · apply BitVec.eq_of_toNat_eq
    simp [r.header_toNat]
    omega

/-- Settles O40: RDST ends with the words it reads, and ending a command writes no context. -/
theorem rdstAnswersTheContext : Obligations.RdstAnswersTheContext :=
  fun _ _ _ hx => exec_rdst_of_ctx? hx

end Sys2Proof.Machine
end

section
/-!
PROOF of O25 and O26: the value of each arithmetic primitive as an integer (R101 to R110), and the
bits of a rotation (R105).
-/

namespace Sys2Proof

/-! ### Values of the primitives at every width -/

@[simp] theorem addN_toNat {n : Nat} (a b : BitVec n) :
    (addN a b).toNat = (a.toNat + b.toNat) % 2 ^ n := BitVec.toNat_add a b

@[simp] theorem mulN_toNat {n : Nat} (a b : BitVec n) :
    (mulN a b).toNat = (a.toNat * b.toNat) % 2 ^ n := BitVec.toNat_mul a b

/-- Shifting left multiplies by `2^k` and drops what passes the width (R103). -/
@[simp] theorem shlN_toNat {n : Nat} (a : BitVec n) (k : Nat) :
    (shlN a k).toNat = (a.toNat * 2 ^ k) % 2 ^ n := by
  rw [shlN, BitVec.toNat_shiftLeft, Nat.shiftLeft_eq]

/-- Shifting right divides by `2^k`, with no sign bit (R104). -/
@[simp] theorem shrN_toNat {n : Nat} (a : BitVec n) (k : Nat) :
    (shrN a k).toNat = a.toNat / 2 ^ k := by
  rw [shrN, BitVec.toNat_ushiftRight, Nat.shiftRight_eq_div_pow]

/-- A left shift by the width or more is 0 (D35). -/
theorem shlN_eq_zero_of_le {n k : Nat} (a : BitVec n) (h : n ≤ k) : shlN a k = 0 :=
  BitVec.shiftLeft_eq_zero h

/-- A right shift by the width or more is 0 (D35). -/
theorem shrN_eq_zero_of_le {n k : Nat} (a : BitVec n) (h : n ≤ k) : shrN a k = 0 :=
  BitVec.ushiftRight_eq_zero h

/-! ### Values of the primitives at 32 and 64 bits -/

@[simp] theorem zext64_toNat (a : U32) : (zext64 a).toNat = a.toNat :=
  BitVec.toNat_setWidth_of_le (by decide)

@[simp] theorem lo32_toNat (v : Word) : (lo32 v).toNat = v.toNat % 2 ^ 32 := by
  rw [lo32, BitVec.extractLsb'_toNat, Nat.shiftRight_zero]

/-- The high half needs no remainder: a word is below `2^64`. -/
@[simp] theorem hi32_toNat (v : Word) : (hi32 v).toNat = v.toNat / 2 ^ 32 := by
  have hlt : v.toNat / 2 ^ 32 < 2 ^ 32 := Nat.div_lt_of_lt_mul v.isLt
  rw [hi32, BitVec.extractLsb'_toNat, Nat.shiftRight_eq_div_pow, Nat.mod_eq_of_lt hlt]

/-- The wide product is exact: a product of two numbers below `2^32` is below `2^64` (R107). -/
@[simp] theorem mulw_toNat (a b : U32) : (mulw a b).toNat = a.toNat * b.toNat := by
  have hlt : a.toNat * b.toNat < 2 ^ 64 :=
    (Nat.mul_lt_mul'' a.isLt b.isLt).trans_eq (by decide)
  rw [mulw, BitVec.toNat_mul, zext64_toNat, zext64_toNat, Nat.mod_eq_of_lt hlt]

@[simp] theorem neg32_toNat (a : U32) : (neg32 a).toNat = (2 ^ 32 - a.toNat) % 2 ^ 32 :=
  BitVec.toNat_neg a

@[simp] theorem umod_toNat (a b : U32) : (umod a b).toNat = a.toNat % b.toNat :=
  BitVec.toNat_umod

/-- The remainder by a divisor that is not 0 is below it (R109). -/
theorem umod_toNat_lt (a : U32) {b : U32} (hb : b ≠ 0) : (umod a b).toNat < b.toNat := by
  have hpos : 0 < b := (BitVec.pos_iff_ne_zero b).mpr hb
  rw [umod_toNat]
  exact Nat.mod_lt _ hpos

/-- The halves of a concatenation do not overlap, so their union is their sum (R110). -/
@[simp] theorem concat32_toNat (a b : U32) :
    (concat32 a b).toNat = a.toNat * 2 ^ 32 + b.toNat := by
  have hlt : a.toNat * 2 ^ 32 < 2 ^ 64 := Nat.mul_lt_mul_of_pos_right a.isLt (by decide)
  rw [concat32, BitVec.toNat_or, shlN_toNat, zext64_toNat, zext64_toNat, Nat.mod_eq_of_lt hlt,
    Nat.mul_comm, Nat.two_pow_add_eq_or_of_lt b.isLt]

/-- Settles O25: each primitive's value, with the remainder written by the quotient as R109 has
it. -/
theorem primitivesComputeModularIntegers : Obligations.PrimitivesComputeModularIntegers := by
  refine ⟨fun n a b => ⟨addN_toNat a b, mulN_toNat a b⟩,
    fun n k a _ => ⟨shlN_toNat a k, shrN_toNat a k⟩,
    fun n k a hk => ⟨shlN_eq_zero_of_le a hk, shrN_eq_zero_of_le a hk⟩,
    fun a b => ⟨mulw_toNat a b, neg32_toNat a, fun hb => ⟨?_, umod_toNat_lt a hb⟩,
      zext64_toNat a, concat32_toNat a b⟩,
    fun v => ⟨lo32_toNat v, hi32_toNat v⟩⟩
  rw [umod_toNat, Nat.mod_eq_sub_mul_div]

/-! ### Bits of a rotation -/

/-- The low `k` bits of a rotation are the top `k` bits of the operand: the left shift has zeros
there. -/
theorem getLsbD_rotlN_of_lt {n k i : Nat} (a : BitVec n) (hi : i < k) :
    (rotlN a k).getLsbD i = a.getLsbD (n - k + i) := by
  simp [rotlN, shlN, shrN, hi]

/-- The other bits of a rotation are the operand's, moved up by `k`: the right shift has zeros
there. -/
theorem getLsbD_rotlN_of_le {n k i : Nat} (a : BitVec n) (hk : k ≤ i) (hi : i < n) :
    (rotlN a k).getLsbD i = a.getLsbD (i - k) := by
  have hout : n ≤ n - k + i := by omega
  rw [rotlN, shlN, shrN, BitVec.getLsbD_or, BitVec.getLsbD_shiftLeft, BitVec.getLsbD_ushiftRight,
    BitVec.getLsbD_of_ge a _ hout]
  simp [hi, hk]

/-- Bit `i` of a rotation is bit `(i - k) mod n` of the operand (R105). -/
theorem getLsbD_rotlN {n k i : Nat} (a : BitVec n) (hk : k ≤ n) (hi : i < n) :
    (rotlN a k).getLsbD i = a.getLsbD ((i + (n - k)) % n) := by
  rcases Nat.lt_or_ge i k with hik | hki
  · have hpos : (i + (n - k)) % n = n - k + i := by
      rw [Nat.mod_eq_of_lt (by omega), Nat.add_comm]
    rw [getLsbD_rotlN_of_lt a hik, hpos]
  · have hpos : (i + (n - k)) % n = i - k := by
      rw [show i + (n - k) = i - k + n by omega, Nat.add_mod_right, Nat.mod_eq_of_lt (by omega)]
    rw [getLsbD_rotlN_of_le a hki hi, hpos]

/-- Settles O26: the union of the two shifts is the definition, and its bits are read on either side
of bit `k`. -/
theorem rotationMovesBitsAround : Obligations.RotationMovesBitsAround :=
  ⟨fun _ _ a _ hk => ⟨rfl, fun _ hi => getLsbD_rotlN a (by omega) hi⟩, by decide, by decide⟩

end Sys2Proof
end

section
/-!
PROOF of O27 to O35: each transition is the formula of its rule (R130 to R138), and its corner cases
and examples are evaluated.
-/

namespace Sys2Proof

theorem lo32_eq_setWidth (v : Word) : lo32 v = v.setWidth 32 :=
  BitVec.eq_of_toNat_eq ((lo32_toNat v).trans (BitVec.toNat_setWidth 32 v).symm)

/-- A constant whose last bit is written out as 1 is odd. -/
theorem getLsbD_zero_append_one (h : BitVec 31) : (h ++ 1#1).getLsbD 0 = true := by
  rw [BitVec.getLsbD_append]
  rfl

/-- The constants are odd and the shifts are 1 to 31 (R136). -/
theorem Sm32.bounds (p : Sm32) :
    p.inc.getLsbD 0 = true ∧ p.mul1.getLsbD 0 = true ∧ p.mul2.getLsbD 0 = true ∧
    1 ≤ p.sh1 ∧ p.sh1 ≤ 31 ∧ 1 ≤ p.sh2 ∧ p.sh2 ≤ 31 ∧ 1 ≤ p.sh3 ∧ p.sh3 ≤ 31 :=
  ⟨getLsbD_zero_append_one _, getLsbD_zero_append_one _, getLsbD_zero_append_one _,
    Nat.succ_pos _, p.sh1Pred.isLt, Nat.succ_pos _, p.sh2Pred.isLt, Nat.succ_pos _, p.sh3Pred.isLt⟩

end Sys2Proof

namespace Sys2Proof.Machine

/-- Settles O27: with the low half as a truncation the two formulas are the same term, and the
cases run. -/
theorem xorshift32Transition : Obligations.Xorshift32Transition := by
  refine ⟨fun w => ?_, by decide, by decide, by decide, by decide⟩
  simp only [transition, xorshift32, lo32_eq_setWidth]
  rfl

/-- Settles O28: the formula is the definition with its shifts unfolded. -/
theorem xorshift64Transition : Obligations.Xorshift64Transition :=
  ⟨fun _ => rfl, by decide, by decide, by decide, by decide, by decide⟩

/-- Settles O29: each word is truncated, and the two formulas are then the same term. -/
theorem xorshift128Transition : Obligations.Xorshift128Transition := by
  refine ⟨fun w => ?_, by decide, by decide, by decide, by decide⟩
  simp only [transition, xorshift128, lo32_eq_setWidth]
  rfl

/-- Settles O30: the formula adds `W[0]` and `W[1]` in the order of the rule's sum, the definition in
the other. -/
theorem xorshift128PlusTransition : Obligations.Xorshift128PlusTransition := by
  refine ⟨fun w => ?_, by decide, by decide, by decide⟩
  simp only [transition, xorshift128p, addN, BitVec.add_comm w.w1 w.w0]
  rfl

/-- Settles O31: the shared update at width 32, with its rotations as two shifts. -/
theorem xoshiro128PlusPlusTransition : Obligations.Xoshiro128PlusPlusTransition := by
  refine ⟨fun w => ?_, by decide, by decide, by decide, by decide⟩
  simp only [transition, xoshiro128pp, lo32_eq_setWidth]
  rfl

/-- Settles O32: the shared update at width 64. -/
theorem xoshiro256PlusPlusTransition : Obligations.Xoshiro256PlusPlusTransition :=
  ⟨fun _ => rfl, by decide, by decide, by decide, by decide⟩

/-- Settles O33: the formula for the constants whatever they are, their bounds, and the candidate
set with its upper bits and predecessors written out. -/
theorem splitmix32Transition : Obligations.Splitmix32Transition := by
  refine ⟨fun w => ?_, Sm32.bounds, ⟨0x4F1BBCDC, 15, 0x42F5E535, 12, 0x6159571A, 15⟩, by decide⟩
  simp only [transition, splitmix32, lo32_eq_setWidth]
  rfl

/-- Settles O34: the formula is the definition, and the samples from 0 run in a row. -/
theorem splitmix64Transition : Obligations.Splitmix64Transition :=
  ⟨fun _ => rfl, by decide, by decide⟩

/-- Settles O35: the formula; zero words mix to zero, so the sample is then the counter alone. -/
theorem xorwowTransition : Obligations.XorwowTransition := by
  refine ⟨fun w => ?_, by decide, fun k => ?_, by decide⟩
  · simp only [transition, xorwow, lo32_eq_setWidth]
    rfl
  · simp [transition, xorwow, lo32_eq_setWidth, shlN, shrN, addN, zext64]

end Sys2Proof.Machine
end

section
/-!
PROOF of O38 and O39: a refused SEED (R140, R143) and NEXT (R139, R141).
-/

namespace Sys2Proof.Machine

section Commands

variable {s : State} {c : Nibble}

/-- SEED of an existing context with an illegal seed only answers (R140). -/
theorem exec_seed_of_illegal {a : Alg} {p : List Word} (hc : c.toNat < s.ctxs.length)
    (hp : ¬ seedLegal a p = true) :
    exec (.seed c a p) s = .next (s.finish .precondition []) := by
  have hx : s.checkContext c = .ok s.ctxs[c.toNat] :=
    State.checkContext_ok_iff.mpr (List.getElem?_eq_getElem hc)
  simp [exec, execSeed, hx, hp]

/-- NEXT of a seeded context advances it and answers the sample (R141). -/
theorem exec_next_of_seeded {x : Context} (hx : s.ctx? c = some x) (hv : x.valid = true) :
    exec (.next c) s = .next ((s.setCtx c x.advance.1).finish .ok [x.advance.2]) := by
  simp only [exec, execNext, State.checkSeeded_ok_iff.mpr ⟨hx, hv⟩]

end Commands

/-- Settles O38: the precondition of R140 is the test of check 9. -/
theorem seedRefusesAnIllegalSeed : Obligations.SeedRefusesAnIllegalSeed :=
  fun _ _ a p hc hp => exec_seed_of_illegal hc (mt (seedLegal_iff a p).mp hp)

/-- Settles O39: writing the context and ending the command are the record update. -/
theorem nextAnswersTheSample : Obligations.NextAnswersTheSample :=
  fun _ _ _ hx hv => exec_next_of_seeded hx hv

end Sys2Proof.Machine
end

section
/-!
PROOF of O36 and O20: no transition and no step enters a zero fixed point (R143, R144).  Each
transition is read backwards: zero words after it come from zero words before it, since each of its
exclusive ors with a shift, and each rotation, sends only zero to zero.
-/

namespace Sys2Proof.Machine

/-! ### Zero words come from zero words -/

theorem xor_of_eq_zero {n : Nat} {a b : BitVec n} (hb : b = 0) : a ^^^ b = a := by
  subst hb
  exact BitVec.xor_zero

section Transitions

variable {w : Words}

theorem isZeroState_of_xorshift32 (h : isZeroState .xorshift32 (xorshift32 w).1 = true) :
    isZeroState .xorshift32 w = true := by
  simp only [isZeroState, xorshift32, lo32_zext64, beq_iff_eq] at h ⊢
  rwa [xor_shlN_eq_zero_iff (by decide), xor_shrN_eq_zero_iff (by decide),
    xor_shlN_eq_zero_iff (by decide)] at h

theorem isZeroState_of_xorshift64 (h : isZeroState .xorshift64 (xorshift64 w).1 = true) :
    isZeroState .xorshift64 w = true := by
  simp only [isZeroState, xorshift64, beq_iff_eq] at h ⊢
  rwa [xor_shlN_eq_zero_iff (by decide), xor_shrN_eq_zero_iff (by decide),
    xor_shlN_eq_zero_iff (by decide)] at h

/-- The three words kept are zero, so the new word is the oldest one through two shifts (R132). -/
theorem isZeroState_of_xorshift128 (h : isZeroState .xorshift128 (xorshift128 w).1 = true) :
    isZeroState .xorshift128 w = true := by
  simp only [isZeroState, xorshift128, lo32_zext64, Bool.and_eq_true, beq_iff_eq, and_assoc] at h ⊢
  obtain ⟨hmix, hs, hc, hd⟩ := h
  have hkept := (xor_shrN_eq_zero_iff (k := 19) (by decide) _).mpr hs
  refine ⟨hs, hc, hd, ?_⟩
  rwa [BitVec.xor_assoc, xor_of_eq_zero hkept, xor_shrN_eq_zero_iff (by decide),
    xor_shlN_eq_zero_iff (by decide)] at hmix

/-- As in xorshift128, with four words kept (R138). -/
theorem isZeroState_of_xorwow (h : isZeroState .xorwow (xorwow w).1 = true) :
    isZeroState .xorwow w = true := by
  simp only [isZeroState, xorwow, lo32_zext64, Bool.and_eq_true, beq_iff_eq, and_assoc] at h ⊢
  obtain ⟨hmix, hs, h1, h2, h3⟩ := h
  have hkept := (xor_shlN_eq_zero_iff (k := 4) (by decide) _).mpr hs
  refine ⟨hs, h1, h2, h3, ?_⟩
  rwa [BitVec.xor_assoc, xor_of_eq_zero hkept, xor_shlN_eq_zero_iff (by decide),
    xor_shrN_eq_zero_iff (by decide)] at hmix

/-- With the old `s[1]` zero, the new word is the old `s[0]` through two shifts (R133). -/
theorem isZeroState_of_xorshift128p (h : isZeroState .xorshift128p (xorshift128p w).1 = true) :
    isZeroState .xorshift128p w = true := by
  simp only [isZeroState, xorshift128p, Bool.and_eq_true, beq_iff_eq] at h ⊢
  obtain ⟨h1, hmix⟩ := h
  have hshr : shrN w.w1 5 = 0 := by rw [h1]; decide
  refine ⟨?_, h1⟩
  rwa [xor_of_eq_zero hshr, xor_of_eq_zero h1, xor_shrN_eq_zero_iff (by decide),
    xor_shlN_eq_zero_iff (by decide)] at hmix

/-- The update that the two xoshiro algorithms share sends only zero words to zero words. -/
theorem xoshiroUpdate_eq_zero {n sh rot : Nat} (hsh : 1 ≤ sh) (hrot : rot ≤ n)
    {s0 s1 s2 s3 : BitVec n} (h : xoshiroUpdate sh rot s0 s1 s2 s3 = (0, 0, 0, 0)) :
    s0 = 0 ∧ s1 = 0 ∧ s2 = 0 ∧ s3 = 0 := by
  simp only [xoshiroUpdate, Prod.mk.injEq] at h
  obtain ⟨h0, h1, h2, h3⟩ := h
  rw [rotlN_eq_zero_iff hrot] at h3
  have hs0 : s0 = 0 := by rwa [xor_of_eq_zero h3] at h0
  rw [xor_of_eq_zero hs0] at h1 h2
  obtain rfl : s1 = s2 := BitVec.xor_eq_zero_iff.mp h1
  have hs1 : s1 = 0 := (xor_shlN_eq_zero_iff hsh s1).mp h2
  exact ⟨hs0, hs1, hs1, by rwa [xor_of_eq_zero hs1] at h3⟩

theorem isZeroState_of_xoshiro128pp (h : isZeroState .xoshiro128pp (xoshiro128pp w).1 = true) :
    isZeroState .xoshiro128pp w = true := by
  simp only [isZeroState, xoshiro128pp, lo32_zext64, Bool.and_eq_true, beq_iff_eq, and_assoc] at h ⊢
  obtain ⟨h0, h1, h2, h3⟩ := h
  exact xoshiroUpdate_eq_zero (sh := 9) (rot := 11) (by decide) (by decide)
    (Prod.ext h0 (Prod.ext h1 (Prod.ext h2 h3)))

theorem isZeroState_of_xoshiro256pp (h : isZeroState .xoshiro256pp (xoshiro256pp w).1 = true) :
    isZeroState .xoshiro256pp w = true := by
  simp only [isZeroState, xoshiro256pp, Bool.and_eq_true, beq_iff_eq, and_assoc] at h ⊢
  obtain ⟨h0, h1, h2, h3⟩ := h
  exact xoshiroUpdate_eq_zero (sh := 17) (rot := 45) (by decide) (by decide)
    (Prod.ext h0 (Prod.ext h1 (Prod.ext h2 h3)))

/-- A transition into the zero fixed point starts there; splitmix has none (R145). -/
theorem isZeroState_of_transition {a : Alg} (h : isZeroState a (transition a w).1 = true) :
    isZeroState a w = true := by
  cases a with
  | xorshift32 => exact isZeroState_of_xorshift32 h
  | xorshift64 => exact isZeroState_of_xorshift64 h
  | xorshift128 => exact isZeroState_of_xorshift128 h
  | xorshift128p => exact isZeroState_of_xorshift128p h
  | xoshiro128pp => exact isZeroState_of_xoshiro128pp h
  | xoshiro256pp => exact isZeroState_of_xoshiro256pp h
  | splitmix32 | splitmix64 => exact absurd h Bool.false_ne_true
  | xorwow => exact isZeroState_of_xorwow h

end Transitions

/-- Settles O36: the transition read backwards. -/
theorem advanceNeverEntersTheZeroState : Obligations.AdvanceNeverEntersTheZeroState :=
  fun _ _ h => Bool.eq_false_iff.mpr fun hz => Bool.eq_false_iff.mp h (isZeroState_of_transition hz)

/-! ### Contexts -/

/-- A context that holds no zero fixed point, if it is seeded (R144). -/
def Context.NonDegenerate (x : Context) : Prop := x.valid = true → isZeroState x.alg x.w = false

theorem State.nonDegenerate_iff (s : State) :
    s.NonDegenerate ↔ ∀ x ∈ s.ctxs, x.NonDegenerate := Iff.rfl

theorem Context.nonDegenerate_reset : Context.reset.NonDegenerate := fun hv => absurd hv (by decide)

/-- A 32-bit payload word that reads as zero is zero. -/
theorem getD_eq_zero_of_lo32 {p : List Word} (hp : ∀ x ∈ p, x.toNat < 2 ^ 32) {i : Nat}
    (h : lo32 (p.getD i 0) = 0) : p.getD i 0 = 0 := by
  have hlt : (p.getD i 0).toNat < 2 ^ 32 := by
    rcases lt_or_ge i p.length with hi | hi
    · rw [List.getD_eq_getElem _ _ hi]
      exact hp _ (List.getElem_mem hi)
    · rw [List.getD_eq_default _ _ hi]
      decide
  rw [← zext64_lo32_of_hi32 ((hi32_eq_zero_iff _).mpr hlt), h]
  rfl

/-- A legal seed is not the zero fixed point (R143).  For xorwow its first four words suffice. -/
theorem isZeroState_ofPayload {a : Alg} {p : List Word} (hp : seedLegal a p = true) :
    isZeroState a (Words.ofPayload p) = false := by
  obtain ⟨-, hnarrow, hok⟩ := (seedLegal_iff a p).mp hp
  have hzero (hw : width a = 32) {i : Nat} (h : lo32 (p.getD i 0) = 0) : p.getD i 0 = 0 :=
    getD_eq_zero_of_lo32 (hnarrow hw) h
  refine Bool.eq_false_iff.mpr fun hz => ?_
  cases a with
  | splitmix32 | splitmix64 => exact Bool.false_ne_true hz
  | xorshift32 => exact hok (hzero rfl (beq_iff_eq.mp hz))
  | xorshift64 => exact hok (beq_iff_eq.mp hz)
  | xorshift128p | xoshiro256pp =>
    simp only [isZeroState, Bool.and_eq_true, beq_iff_eq, and_assoc] at hz
    exact hok hz
  | xorshift128 | xoshiro128pp =>
    simp only [isZeroState, Bool.and_eq_true, beq_iff_eq, and_assoc] at hz
    obtain ⟨h0, h1, h2, h3⟩ := hz
    exact hok ⟨hzero rfl h0, hzero rfl h1, hzero rfl h2, hzero rfl h3⟩
  | xorwow =>
    simp only [isZeroState, Bool.and_eq_true, beq_iff_eq, and_assoc] at hz
    obtain ⟨h0, h1, h2, h3, -⟩ := hz
    exact hok ⟨hzero rfl h0, hzero rfl h1, hzero rfl h2, hzero rfl h3⟩

theorem Context.nonDegenerate_seeded {a : Alg} {p : List Word} (hp : seedLegal a p = true) :
    (Context.seeded a p).NonDegenerate := fun _ => isZeroState_ofPayload hp

section Draws

variable {x y : Context}

theorem Context.NonDegenerate.advance (h : x.NonDegenerate) : x.advance.1.NonDegenerate :=
  fun hv => advanceNeverEntersTheZeroState x.alg x.w (h hv)

/-- `draw64` advances once or twice (R206). -/
theorem Context.NonDegenerate.draw64 (h : x.NonDegenerate) : x.draw64.1.NonDegenerate := by
  rcases x.draw64_cases with ⟨_, he⟩ | ⟨_, he⟩ <;> rw [he]
  · exact h.advance
  · exact h.advance.advance

/-- A feed advances, or takes the cached half and leaves the words alone (R230). -/
theorem Context.NonDegenerate.feed (h : x.NonDegenerate) : x.feed.1.NonDegenerate := by
  cases hh : x.half with
  | true =>
    rw [Context.feed_of_cached hh]
    exact h
  | false =>
    rw [Context.feed_of_empty hh]
    exact h.advance

theorem Context.DrawnTo.nonDegenerate (hy : x.DrawnTo y) (h : x.NonDegenerate) :
    y.NonDegenerate := by
  rcases hy with rfl | rfl | ⟨rfl, _⟩
  · exact h.advance
  · exact h.draw64
  · exact h.feed

end Draws

/-! ### Steps -/

section Steps

variable {s t : State} {c : Nibble} {x : Context}

theorem State.NonDegenerate.ctx? (h : s.NonDegenerate) (hx : s.ctx? c = some x) :
    x.NonDegenerate :=
  h x (State.ctx?_mem hx)

theorem State.NonDegenerate.setCtx (h : s.NonDegenerate) (hx : x.NonDegenerate) :
    (s.setCtx c x).NonDegenerate := by
  intro y hy
  rcases List.mem_or_eq_of_mem_set hy with hy | rfl
  · exact h y hy
  · exact hx

/-- Only the contexts matter: ending a command, entering the loop and moving words keep it. -/
theorem State.NonDegenerate.of_ctxs_eq (h : s.NonDegenerate) (he : t.ctxs = s.ctxs) :
    t.NonDegenerate := by
  rwa [State.nonDegenerate_iff, he]

theorem bdrawRedraw_nonDegenerate (h : s.NonDegenerate) (hx : s.ctx? c = some x) (v : Variant)
    (range th : U32) : (bdrawRedraw v c range th x s).NonDegenerate := by
  have hset : (s.setCtx c x.feed.1).NonDegenerate := h.setCtx (h.ctx? hx).feed
  rcases bdrawRedraw_cases v c range th x s with ⟨_, he⟩ | ⟨_, he⟩ <;> rw [he]
  · exact hset.of_ctxs_eq rfl
  · exact hset.of_ctxs_eq rfl

theorem CommandResult.nonDegenerate {i : Instr} (ht : CommandResult i s t) (h : s.NonDegenerate) :
    t.NonDegenerate := by
  cases ht with
  | failed | answered => exact h.of_ctxs_eq rfl
  | seeded c a p hi hc hp => exact (h.setCtx (Context.nonDegenerate_seeded hp)).of_ctxs_eq rfl
  | drawn c x y r hi hx hv hy => exact (h.setCtx (hy.nonDegenerate (h.ctx? hx))).of_ctxs_eq rfl
  | looping c range x v hi hx hf hr hlow => exact (h.setCtx (h.ctx? hx).feed).of_ctxs_eq rfl

theorem StepResult.nonDegenerate (ht : StepResult s t) (h : s.NonDegenerate) :
    t.NonDegenerate := by
  cases ht with
  | reset hr =>
    intro x hx
    obtain ⟨_, _, rfl⟩ := List.mem_map.mp hx
    exact Context.nonDegenerate_reset
  | redraw hr c range th m v x hp hx hf => exact bdrawRedraw_nonDegenerate h hx v range th
  | received hr hp hd => exact h.of_ctxs_eq s.receive_ctxs
  | illegal hr hp why rest hd => exact h.of_ctxs_eq rfl
  | command hr hp i rest hd t ht => exact ht.nonDegenerate (h.of_ctxs_eq rfl)

end Steps

/-- Settles O20: a step seeds with a legal seed, draws by transitions, resets, or writes no
context. -/
theorem everyStepKeepsGeneratorsNonDegenerate :
    Obligations.EveryStepKeepsGeneratorsNonDegenerate :=
  fun _ _ h hstep => (step_result hstep).nonDegenerate h

end Sys2Proof.Machine
end

section
/-!
PROOF of O42 to O45: the value of both conversions (R200 to R203), their range (R209) and where they
agree (R210).  The pattern of `v * 2^-k` is read field by field: with `e = floor(log2 v)`, the
number `v * 2^(52 - e)` lies in `[2^52, 2^53)`, its leading one is the hidden bit and the rest is
the fraction.
-/

namespace Sys2Proof.Machine

/-! ### A pattern and its fields -/

/-- A word read as an exponent field above a fraction field, the sign being 0, has the value of
R200. -/
theorem binary64Value_of_fields {d : Word} {e f : Nat} (hd : d.toNat = e * 2 ^ 52 + f)
    (hpos : 1 ≤ e) (hle : e ≤ 2046) (hf : f < 2 ^ 52) :
    binary64Value d = some ((1 + (f : ℚ) / 2 ^ 52) * 2 ^ ((e : ℤ) - 1023)) := by
  have hsign : (d.extractLsb' 63 1).toNat = 0 := by
    rw [BitVec.extractLsb'_toNat, Nat.shiftRight_eq_div_pow]; omega
  have hexp : (d.extractLsb' 52 11).toNat = e := by
    rw [BitVec.extractLsb'_toNat, Nat.shiftRight_eq_div_pow]; omega
  have hfrac : (d.extractLsb' 0 52).toNat = f := by
    rw [BitVec.extractLsb'_toNat, Nat.shiftRight_zero]; omega
  have hne : d ≠ 0 := by
    rintro rfl
    have hd' : 0 = e * 2 ^ 52 + f := hd
    omega
  simp only [binary64Value, hsign, hexp, hfrac, if_neg hne, if_pos (And.intro hpos hle), pow_zero,
    one_mul]

/-! ### The pattern of a scaled integer -/

@[simp] theorem scaledPattern_zero (k : Nat) : scaledPattern 0#64 k = 0#64 := if_pos rfl

section ScaledPattern

variable {v : Word} {k : Nat}

/-- The integer moved up until its leading one is bit 52. -/
theorem mul_two_pow_mem_of_log2 {n : Nat} (hn : n ≠ 0) (hlt : n < 2 ^ 53) :
    n.log2 ≤ 52 ∧ 2 ^ 52 ≤ n * 2 ^ (52 - n.log2) ∧ n * 2 ^ (52 - n.log2) < 2 ^ 53 := by
  have hlog : n.log2 ≤ 52 := Nat.le_of_lt_succ ((Nat.log2_lt hn).mpr hlt)
  refine ⟨hlog, ?_, ?_⟩
  · calc 2 ^ 52 = 2 ^ n.log2 * 2 ^ (52 - n.log2) := by rw [← pow_add, Nat.add_sub_cancel' hlog]
      _ ≤ n * 2 ^ (52 - n.log2) := Nat.mul_le_mul_right _ (Nat.log2_self_le hn)
  · calc n * 2 ^ (52 - n.log2) < 2 ^ (n.log2 + 1) * 2 ^ (52 - n.log2) :=
          Nat.mul_lt_mul_of_pos_right Nat.lt_log2_self (Nat.two_pow_pos _)
      _ = 2 ^ 53 := by rw [← pow_add]; congr 1; omega

/-- The two fields of the pattern do not overlap: the biased exponent, and the moved integer without
its leading one (R202, R203). -/
theorem scaledPattern_toNat (hv : v ≠ 0) (hlt : v.toNat < 2 ^ 53) (hk : k ≤ 1022) :
    (scaledPattern v k).toNat =
      (1023 + v.toNat.log2 - k) * 2 ^ 52 + (v.toNat * 2 ^ (52 - v.toNat.log2) - 2 ^ 52) := by
  obtain ⟨hlog, hge, hm⟩ := mul_two_pow_mem_of_log2 (BitVec.toNat_ne.mp hv) hlt
  have hexp : (shlN (BitVec.ofNat 64 (1023 + v.toNat.log2 - k)) 52).toNat =
      2 ^ 52 * (1023 + v.toNat.log2 - k) := by
    rw [shlN_toNat, BitVec.toNat_ofNat]; omega
  have hfrac : (shlN v (52 - v.toNat.log2) &&& 0x000FFFFFFFFFFFFF).toNat =
      v.toNat * 2 ^ (52 - v.toNat.log2) - 2 ^ 52 := by
    have hmask : (0x000FFFFFFFFFFFFF : Word).toNat = 2 ^ 52 - 1 := rfl
    rw [BitVec.toNat_and, hmask, Nat.and_two_pow_sub_one_eq_mod, shlN_toNat]; omega
  simp only [scaledPattern, if_neg hv, BitVec.toNat_or, hexp, hfrac]
  rw [← Nat.two_pow_add_eq_or_of_lt (by omega), Nat.mul_comm]

/-- The pattern's value is `v * 2^-k` with no rounding (R201). -/
theorem binary64Value_scaledPattern (hlt : v.toNat < 2 ^ 53) (hk : k ≤ 1022) :
    binary64Value (scaledPattern v k) = some ((v.toNat : ℚ) / 2 ^ k) := by
  by_cases hv : v = 0
  · subst hv
    simp [binary64Value]
  · obtain ⟨hlog, hge, hm⟩ := mul_two_pow_mem_of_log2 (BitVec.toNat_ne.mp hv) hlt
    rw [binary64Value_of_fields (scaledPattern_toNat hv hlt hk) (by omega) (by omega) (by omega)]
    have hbias : ((1023 + v.toNat.log2 - k : Nat) : ℤ) - 1023 = (v.toNat.log2 : ℤ) - k := by omega
    have hsplit : (2 : ℚ) ^ (52 - v.toNat.log2) * 2 ^ v.toNat.log2 = 2 ^ 52 :=
      pow_sub_mul_pow 2 hlog
    have hfrac : 1 + ((v.toNat * 2 ^ (52 - v.toNat.log2) - 2 ^ 52 : Nat) : ℚ) / 2 ^ 52 =
        v.toNat * 2 ^ (52 - v.toNat.log2) / 2 ^ 52 := by
      rw [Nat.cast_sub hge]
      push_cast
      ring
    rw [hfrac, hbias, zpow_sub₀ two_ne_zero, zpow_natCast, zpow_natCast, ← hsplit]
    field_simp

/-- Doubling the integer and halving the scale gives the same pattern. -/
theorem scaledPattern_of_double {u : Word} (huv : v.toNat = 2 * u.toNat) (hlt : v.toNat < 2 ^ 53)
    (hk : k + 1 ≤ 1022) : scaledPattern v (k + 1) = scaledPattern u k := by
  by_cases hu : u = 0
  · subst hu
    obtain rfl : v = 0 := BitVec.eq_of_toNat_eq huv
    simp
  · have hu' : u.toNat ≠ 0 := BitVec.toNat_ne.mp hu
    have hv : v ≠ 0 := BitVec.toNat_ne.mpr (by rw [huv]; simpa using hu')
    have hlog : v.toNat.log2 = u.toNat.log2 + 1 := by rw [huv, Nat.log2_two_mul hu']
    have hle : v.toNat.log2 ≤ 52 := (mul_two_pow_mem_of_log2 (BitVec.toNat_ne.mp hv) hlt).1
    have hmoved : v.toNat * 2 ^ (52 - v.toNat.log2) = u.toNat * 2 ^ (52 - u.toNat.log2) := by
      rw [show 52 - u.toNat.log2 = 52 - v.toNat.log2 + 1 by omega, huv, pow_succ]; ring
    apply BitVec.eq_of_toNat_eq
    rw [scaledPattern_toNat hv hlt hk, scaledPattern_toNat hu (by omega) (by omega), hmoved, hlog]
    congr 2
    omega

end ScaledPattern

/-! ### The two conversions -/

section Conversions

variable {x v : Word}

theorem convMul_eq_scaledPattern (h : x.toNat / 2 ^ 11 = v.toNat) :
    convMul x = scaledPattern v 53 := by
  rw [convMul, BitVec.eq_of_toNat_eq ((shrN_toNat x 11).trans h)]

theorem convBit_eq_scaledPattern (h : x.toNat / 2 ^ 12 = v.toNat) :
    convBit x = scaledPattern v 52 := by
  rw [convBit, BitVec.eq_of_toNat_eq ((shrN_toNat x 12).trans h)]

variable (x)

theorem binary64Value_convMul :
    binary64Value (convMul x) = some (((x.toNat / 2 ^ 11 : Nat) : ℚ) / 2 ^ 53) := by
  have hlt : (shrN x 11).toNat < 2 ^ 53 := by rw [shrN_toNat]; omega
  rw [convMul, binary64Value_scaledPattern hlt (by decide), shrN_toNat]

theorem binary64Value_convBit :
    binary64Value (convBit x) = some (((x.toNat / 2 ^ 12 : Nat) : ℚ) / 2 ^ 52) := by
  have hlt : (shrN x 12).toNat < 2 ^ 53 := by rw [shrN_toNat]; omega
  rw [convBit, binary64Value_scaledPattern hlt (by decide), shrN_toNat]

/-- The pattern that R203 builds and reads as a number in `[1, 2)`. -/
theorem binary64Value_builtPattern :
    binary64Value ((0x3FF <<< 52) ||| (x >>> 12)) =
      some (1 + ((x.toNat / 2 ^ 12 : Nat) : ℚ) / 2 ^ 52) := by
  have hlt : x.toNat / 2 ^ 12 < 2 ^ 52 := by omega
  have hone : ((0x3FF <<< 52 : Nat) : Word).toNat = 2 ^ 52 * 1023 := by decide
  have hd : ((0x3FF <<< 52) ||| (x >>> 12) : Word).toNat = 1023 * 2 ^ 52 + x.toNat / 2 ^ 12 := by
    rw [BitVec.toNat_or, hone, BitVec.toNat_ushiftRight, Nat.shiftRight_eq_div_pow,
      ← Nat.two_pow_add_eq_or_of_lt hlt, Nat.mul_comm]
  rw [binary64Value_of_fields hd (by decide) (by decide) hlt]
  simp

/-- The operand's top 53 bits are twice its top 52 exactly when bit 11 is 0. -/
theorem getLsbD_eleven_eq_false_iff :
    x.getLsbD 11 = false ↔ x.toNat / 2 ^ 11 = 2 * (x.toNat / 2 ^ 12) := by
  rw [BitVec.getLsbD, Nat.testBit_eq_decide_div_mod_eq, decide_eq_false_iff_not]
  omega

/-- Equal patterns have equal values, so the top 53 bits are twice the top 52; and when they are,
the two patterns are of one number at two scales. -/
theorem convMul_eq_convBit_iff : convMul x = convBit x ↔ x.getLsbD 11 = false := by
  rw [getLsbD_eleven_eq_false_iff]
  constructor
  · intro h
    have hval := congrArg binary64Value h
    rw [binary64Value_convMul, binary64Value_convBit, Option.some.injEq] at hval
    have hdouble : ((x.toNat / 2 ^ 11 : Nat) : ℚ) = 2 * (x.toNat / 2 ^ 12 : Nat) := by linarith
    exact_mod_cast hdouble
  · intro h
    refine scaledPattern_of_double ?_ ?_ (by decide)
    · rw [shrN_toNat, shrN_toNat, h]
    · rw [shrN_toNat]; omega

end Conversions

theorem div_two_pow_nonneg_lt_one {n k : Nat} (h : n < 2 ^ k) :
    0 ≤ (n : ℚ) / 2 ^ k ∧ (n : ℚ) / 2 ^ k < 1 :=
  ⟨by positivity, (div_lt_one (by positivity)).mpr (by exact_mod_cast h)⟩

/-- Settles O42: the pattern's value is exact, and in each corner range the top 53 bits are one
constant. -/
theorem multiplicativeConversionIsExact : Obligations.MultiplicativeConversionIsExact := by
  refine ⟨binary64Value_convMul, fun x h => ?_, fun x h h' => ?_, fun x h => ?_, by decide⟩
  · exact (convMul_eq_scaledPattern (v := 0) (Nat.div_eq_of_lt h)).trans (scaledPattern_zero 53)
  · exact (convMul_eq_scaledPattern (v := 1) (show _ = 1 by omega)).trans (by decide)
  · have hlt := x.isLt
    exact (convMul_eq_scaledPattern (v := 0x1FFFFFFFFFFFFF)
      (show _ = 0x1FFFFFFFFFFFFF by omega)).trans (by decide)

/-- Settles O43: the built pattern is `1 + (x >> 12) / 2^52`, the conversion that value less 1, and
in each corner range the top 52 bits are one constant. -/
theorem bitConstructionConversionIsExact : Obligations.BitConstructionConversionIsExact := by
  refine ⟨fun x => ⟨_, binary64Value_builtPattern x, rfl, ?_⟩, fun x h => ?_, fun x h h' => ?_,
    fun x h => ?_, by decide⟩
  · rw [add_sub_cancel_left, binary64Value_convBit]
  · exact (convBit_eq_scaledPattern (v := 0) (Nat.div_eq_of_lt h)).trans (scaledPattern_zero 52)
  · exact (convBit_eq_scaledPattern (v := 1) (show _ = 1 by omega)).trans (by decide)
  · have hlt := x.isLt
    exact (convBit_eq_scaledPattern (v := 0xFFFFFFFFFFFFF)
      (show _ = 0xFFFFFFFFFFFFF by omega)).trans (by decide)

/-- Settles O44: the values are a 53-bit integer over `2^53` and a 52-bit integer over `2^52`. -/
theorem conversionsLieInTheUnitInterval : Obligations.ConversionsLieInTheUnitInterval :=
  fun x => ⟨⟨_, binary64Value_convMul x, div_two_pow_nonneg_lt_one (by omega)⟩,
    ⟨_, binary64Value_convBit x, div_two_pow_nonneg_lt_one (by omega)⟩⟩

/-- Settles O45: the two values are compared, and the example runs. -/
theorem conversionsAgreeExactlyWhenBit11IsClear :
    Obligations.ConversionsAgreeExactlyWhenBit11IsClear :=
  ⟨convMul_eq_convBit_iff, by decide, by decide⟩

end Sys2Proof.Machine
end

section
/-!
PROOF of O46 to O48: the 64 bits a context supplies (R206) and the four conversion commands (R204,
R205, R207, R208).
-/

namespace Sys2Proof.Machine

/-- A sample of a 32-bit algorithm is zero-extended (R79), whatever the words hold. -/
theorem transition_sample_lt {a : Alg} (ha : width a = 32) (w : Words) :
    (transition a w).2.toNat < 2 ^ 32 := by
  obtain ⟨w', v, h, _⟩ := transition_narrow_shape a w ha
  rw [h]
  exact zext64_lt v

section Draws

variable {x : Context}

theorem Context.draw64_of_wide (h : width x.alg = 64) : x.draw64 = x.advance :=
  (x.draw64_cases.resolve_right fun hn => hn.1 h).2

theorem Context.draw64_of_narrow (h : width x.alg = 32) :
    x.draw64 = (x.advance.1.advance.1,
      concat32 (lo32 x.advance.2) (lo32 x.advance.1.advance.2)) :=
  (x.draw64_cases.resolve_left fun hw => by simp [h] at hw).2

/-- NEXTD_M and NEXTD_B of a seeded context write what `draw64` leaves and answer the conversion. -/
theorem drawConverted_of_seeded {s : State} {c : Nibble} (hx : s.ctx? c = some x)
    (hv : x.valid = true) (conv : Word → Word) :
    drawConverted conv c s = (s.setCtx c x.draw64.1).finish .ok [conv x.draw64.2] := by
  simp only [drawConverted, State.checkSeeded_ok_iff.mpr ⟨hx, hv⟩]

end Draws

/-- Settles O47: a wide draw is one advance; the low halves of two narrow samples are the samples,
and their concatenation is their sum at two scales. -/
theorem draw64ConcatenatesTwoNarrowSamples : Obligations.Draw64ConcatenatesTwoNarrowSamples := by
  refine ⟨fun x h => Context.draw64_of_wide h, fun x h => ?_, by decide⟩
  have hfirst := transition_sample_lt h x.w
  have hsecond := transition_sample_lt h (transition x.alg x.w).1
  rw [Context.draw64_of_narrow h]
  refine ⟨rfl, hfirst, hsecond, ?_⟩
  rw [concat32_toNat, lo32_toNat, lo32_toNat]
  exact congrArg₂ (· * 2 ^ 32 + ·) (Nat.mod_eq_of_lt hfirst) (Nat.mod_eq_of_lt hsecond)

/-- Settles O46: each command ends with its conversion as the one result. -/
theorem conversionCommandsAnswer : Obligations.ConversionCommandsAnswer :=
  fun _ _ => ⟨rfl, rfl⟩

/-- Settles O48: the draw's write and answer are the record update, and the feeder is not used. -/
theorem drawAndConvertCommandsAnswer : Obligations.DrawAndConvertCommandsAnswer := by
  intro s c x hx hv
  have hfeeder := x.draw64_feeder
  refine ⟨congrArg _ (drawConverted_of_seeded hx hv convMul),
    congrArg _ (drawConverted_of_seeded hx hv convBit), ?_, ?_⟩
  · exact congrArg Prod.fst hfeeder
  · exact congrArg Prod.snd hfeeder

end Sys2Proof.Machine
end

section
/-!
PROOF of O49 to O51 and the thresholds of O52: the feeder (R230, R231), and the two ways to compute
the threshold (R232 to R234).
-/

namespace Sys2Proof.Machine

/-! ### The feeder -/

/-- Settles O49: the first feed leaves the feeder half-cached, so the second one empties it. -/
theorem feedSplitsASampleHighHalfFirst : Obligations.FeedSplitsASampleHighHalfFirst := by
  refine ⟨fun x hx => ⟨Context.feed_of_empty hx, ?_⟩, fun x hx => Context.feed_of_cached hx⟩
  rw [Context.feed_of_empty hx, Context.feed_of_cached rfl]
  rfl

/-- Settles O50: the checks pass, and the write and the answer are the record update. -/
theorem feed32AnswersOneFeed : Obligations.Feed32AnswersOneFeed := by
  intro s c x hx hv hw
  simp only [exec, execFeed32, State.checkFeedable_ok_iff.mpr ⟨hx, hv, hw⟩]
  rfl

/-! ### The thresholds -/

/-- A conditional subtraction leaves the remainder as it is (R233). -/
theorem umod_sub_of_le {a b : U32} (h : b ≤ a) : umod (a - b) b = umod a b := by
  apply BitVec.eq_of_toNat_eq
  rw [umod_toNat, umod_toNat, BitVec.toNat_sub_of_le h, ← Nat.mod_eq_sub_mod h]

/-- The subtractions of the division-avoiding threshold end below the range or go on to the
remainder; either way the remainder is the division-free one (R234). -/
theorem thresholdDa_eq_thresholdDf (range : U32) : thresholdDa range = thresholdDf range := by
  simp only [thresholdDa, thresholdDf]
  split_ifs with h0 h1 h2
  · rw [umod_sub_of_le h1, umod_sub_of_le h0]
  · rw [← umod_sub_of_le h0, ← umod_sub_of_le h1]
    exact (BitVec.umod_eq_of_lt (BitVec.not_le.mp h2)).symm
  · rw [← umod_sub_of_le h0]
    exact (BitVec.umod_eq_of_lt (BitVec.not_le.mp h1)).symm
  · exact (BitVec.umod_eq_of_lt (BitVec.not_le.mp h0)).symm

/-- Both variants test against the same threshold. -/
@[simp] theorem threshold_eq_thresholdDf (v : Variant) (range : U32) :
    threshold v range = thresholdDf range := by
  cases v with
  | df => rfl
  | da => exact thresholdDa_eq_thresholdDf range

section Range

variable {range : U32}

/-- For a range that is not 0 the negation needs no reduction modulo `2^32`. -/
theorem neg32_toNat_of_ne_zero (h : range ≠ 0) : (neg32 range).toNat = 2 ^ 32 - range.toNat := by
  have hpos : range.toNat ≠ 0 := BitVec.toNat_ne.mp h
  rw [neg32_toNat, Nat.mod_eq_of_lt (by omega)]

theorem thresholdDf_toNat (h : range ≠ 0) :
    (thresholdDf range).toNat = (2 ^ 32 - range.toNat) % range.toNat := by
  rw [thresholdDf, umod_toNat, neg32_toNat_of_ne_zero h]

theorem thresholdDf_lt (h : range ≠ 0) : thresholdDf range < range := umod_toNat_lt _ h

end Range

/-- Settles O51: the remainder of the negation, which is below its divisor and at most its
dividend. -/
theorem thresholdIsTheResidueOfTheNegation : Obligations.ThresholdIsTheResidueOfTheNegation := by
  refine ⟨fun range h => ⟨thresholdDf_toNat h, thresholdDf_lt h, ?_⟩, by decide⟩
  rw [thresholdDf_toNat h]
  exact Nat.mod_le _ _

end Sys2Proof.Machine
end

section
/-!
PROOF of O11 and O52 to O58: bounded draws.  A draw at or above the range is also at or above the
threshold, so step 0 of a draw is a step of its loop (`bdraw_of_feedable`), and every draw of a
command is accepted or rejected by the one test of `bdrawRedraw`.
-/

namespace Sys2Proof.Machine

variable {s t : State} {i : Instr} {c : Nibble} {range th : U32} {x : Context} {v : Variant}

/-! ### One draw -/

theorem bdrawRedraw_of_accepted (h : th ≤ lo32 (mulw x.feed.2 range)) :
    bdrawRedraw v c range th x s =
      (s.setCtx c x.feed.1).finish .ok [zext64 (hi32 (mulw x.feed.2 range))] :=
  if_pos h

theorem bdrawRedraw_of_rejected (h : lo32 (mulw x.feed.2 range) < th) :
    bdrawRedraw v c range th x s =
      (s.setCtx c x.feed.1).setPhase (.loop c range th (mulw x.feed.2 range) v) :=
  if_neg (BitVec.not_le.mpr h)

/-- Step 0 of a bounded draw is a step of its loop: what it accepts without a threshold, the
threshold accepts too (R235). -/
theorem bdrawFirst_eq_bdrawRedraw (hr : range ≠ 0) :
    bdrawFirst v c range x s = bdrawRedraw v c range (thresholdDf range) x s := by
  rw [bdrawFirst_eq, threshold_eq_thresholdDf]
  split
  · rename_i hlow
    have hle : thresholdDf range ≤ range := BitVec.le_of_lt (thresholdDf_lt hr)
    exact (bdrawRedraw_of_accepted (BitVec.le_trans hle hlow)).symm
  · rfl

/-! ### The two commands -/

/-- BDRAW_DF and BDRAW_DA are one bounded draw in two variants (R237, R238). -/
theorem exec_bdraw (hi : (i = .bdrawDf c range ∧ v = .df) ∨ (i = .bdrawDa c range ∧ v = .da)) :
    exec i s = .next (bdraw v c range s) := by
  rcases hi with ⟨rfl, rfl⟩ | ⟨rfl, rfl⟩ <;> rfl

theorem exists_variant_of_bdraw (hi : i = .bdrawDf c range ∨ i = .bdrawDa c range) :
    ∃ v : Variant, (i = .bdrawDf c range ∧ v = .df) ∨ (i = .bdrawDa c range ∧ v = .da) :=
  hi.elim (fun h => ⟨.df, .inl ⟨h, rfl⟩⟩) fun h => ⟨.da, .inr ⟨h, rfl⟩⟩

theorem bdraw_of_checkRange_ok (h : s.checkRange c range = .ok x) :
    bdraw v c range s = bdrawRedraw v c range (thresholdDf range) x s := by
  obtain ⟨_, _, _, hr⟩ := State.checkRange_ok_iff.mp h
  simp only [bdraw, h, bdrawFirst_eq_bdrawRedraw hr]

theorem bdraw_of_checkRange_error {e : Status} (h : s.checkRange c range = .error e) :
    bdraw v c range s = s.finish e [] := by
  simp only [bdraw, h, State.fail_eq_finish]

theorem bdraw_of_feedable (hx : s.ctx? c = some x) (hv : x.valid = true) (hw : width x.alg = 64)
    (hr : range ≠ 0) : bdraw v c range s = bdrawRedraw v c range (thresholdDf range) x s :=
  bdraw_of_checkRange_ok (State.checkRange_ok_iff.mpr ⟨hx, hv, hw, hr⟩)

/-- Settles O53: check 12 is the last, and a failed check only answers. -/
theorem rangeZeroIsRefusedBeforeAnyFeed : Obligations.RangeZeroIsRefusedBeforeAnyFeed := by
  intro s c x hx hv hw
  have hcheck : s.checkRange c 0 = .error .invalidRange :=
    State.checkRange_error_iff.mpr
      (.inr ⟨x, State.checkFeedable_ok_iff.mpr ⟨hx, hv, hw⟩, rfl, rfl⟩)
  exact ⟨congrArg _ (bdraw_of_checkRange_error hcheck),
    congrArg _ (bdraw_of_checkRange_error hcheck)⟩

/-- A draw with range 1 is accepted by its threshold 0, and its product has a zero high half
(R240). -/
theorem bdraw_range_one (hx : s.ctx? c = some x) (hv : x.valid = true) (hw : width x.alg = 64) :
    bdraw v c 1 s = (s.setCtx c x.feed.1).finish .ok [0] := by
  have hthreshold : thresholdDf 1 = 0 := by decide
  have hhigh : hi32 (mulw x.feed.2 1) = 0 := by
    apply BitVec.eq_of_toNat_eq
    rw [hi32_toNat, mulw_toNat]
    exact Nat.div_eq_of_lt ((Nat.mul_one _).trans_lt x.feed.2.isLt)
  rw [bdraw_of_feedable hx hv hw (by decide), hthreshold,
    bdrawRedraw_of_accepted (Nat.zero_le _), hhigh]
  rfl

/-- Settles O54: both variants make the draw with range 1. -/
theorem rangeOneGivesZeroAfterOneFeed : Obligations.RangeOneGivesZeroAfterOneFeed :=
  ⟨by decide, by decide, fun _ _ _ hx hv hw =>
    ⟨congrArg _ (bdraw_range_one hx hv hw), congrArg _ (bdraw_range_one hx hv hw)⟩⟩

/-! ### The loop and what a draw answers -/

/-- A step inside the rejection loop is one draw on the loop's context. -/
theorem step_loop_result {m : Word} (hr : s.resetIn = false) (hp : s.phase = .loop c range th m v)
    (h : step s = .next t) : ∃ x, t = bdrawRedraw v c range th x s := by
  obtain ⟨x, _, _, ht⟩ := bdrawLoop_eq_next_iff.mp ((step_of_loop hr hp).symm.trans h)
  exact ⟨x, ht⟩

/-- Settles O11: by the frame of a draw, and whether it is accepted. -/
theorem rejectionLoopHoldsThePort : Obligations.RejectionLoopHoldsThePort := by
  intro s t c range th m v hr hp h
  obtain ⟨x, rfl⟩ := step_loop_result hr hp h
  have hframe := bdrawRedraw_frame v c range th x s
  refine ⟨hframe.port, hframe.inbuf, ?_⟩
  rcases bdrawRedraw_cases v c range th x s with ⟨_, he⟩ | ⟨_, he⟩ <;> rw [he]
  · exact .inl ⟨rfl, _, rfl⟩
  · exact .inr ⟨rfl, _, rfl⟩

/-- `m = y * range < 2^32 * range` (R241). -/
theorem hi32_mulw_lt (y : U32) (hr : range ≠ 0) : hi32 (mulw y range) < range := by
  have hpos : 0 < range.toNat := (BitVec.pos_iff_ne_zero range).mpr hr
  show (hi32 (mulw y range)).toNat < range.toNat
  rw [hi32_toNat, mulw_toNat]
  exact Nat.div_lt_of_lt_mul (Nat.mul_lt_mul_of_pos_right y.isLt hpos)

/-- What a draw answers is below its range (R241). -/
theorem bdrawRedraw_answer_lt {r : Word} (hr : range ≠ 0)
    (h : (bdrawRedraw v c range th x s).responses = s.responses ++ [⟨.ok, [r]⟩]) :
    r.toNat < range.toNat := by
  rcases bdrawRedraw_cases v c range th x s with ⟨_, he⟩ | ⟨_, he⟩ <;> rw [he] at h
  · obtain rfl : zext64 (hi32 (mulw x.feed.2 range)) = r := by simpa using h
    rw [zext64_toNat]
    exact hi32_mulw_lt _ hr
  · simp at h

/-- Settles O55: an answer OK is that of a draw, since a check fails with another status. -/
theorem boundedDrawIsBelowItsRange : Obligations.BoundedDrawIsBelowItsRange := by
  refine ⟨fun y range hr => hi32_mulw_lt y hr, fun i c range s t r hi h hanswer => ?_,
    fun s t c range th m r v hreset hp hr h hanswer => ?_⟩
  · obtain ⟨v, hv⟩ := exists_variant_of_bdraw hi
    obtain rfl := Host.Outcome.next.inj ((exec_bdraw hv).symm.trans h)
    cases hc : s.checkRange c range with
    | error e =>
      rw [bdraw_of_checkRange_error hc] at hanswer
      simp at hanswer
    | ok x =>
      obtain ⟨_, _, _, hr⟩ := State.checkRange_ok_iff.mp hc
      rw [bdraw_of_checkRange_ok hc] at hanswer
      exact bdrawRedraw_answer_lt hr hanswer
  · obtain ⟨x, rfl⟩ := step_loop_result hreset hp h
    exact bdrawRedraw_answer_lt hr hanswer

/-! ### The draws in a row -/

theorem Context.feedAt_feedable (x : Context) (k : Nat) : (x.feedAt k).1.feedable = x.feedable := by
  induction k with
  | zero => exact x.feed_feedable
  | succ k ih => exact (Context.feed_feedable _).trans ih

/-- The state after the draws 0 to `k` on context `x` of `s`, the last of them rejected (R235). -/
def State.rejected (s : State) (v : Variant) (c : Nibble) (range : U32) (x : Context) (k : Nat) :
    State :=
  (s.setCtx c (x.feedAt k).1).setPhase (.loop c range (thresholdDf range) (x.productAt range k) v)

/-- A draw writes over its context and PHASE, whatever they were. -/
theorem bdrawRedraw_setCtx_setPhase (s : State) (y : Context) (p : Phase) :
    bdrawRedraw v c range th x ((s.setCtx c y).setPhase p) = bdrawRedraw v c range th x s := by
  have hwrite (z : Context) :
      ((s.setCtx c y).setPhase p).setCtx c z = (s.setCtx c z).setPhase p := by
    simp [State.setCtx, State.setPhase]
  unfold bdrawRedraw
  rw [hwrite]
  rfl

section Draws

variable (hreset : s.resetIn = false) (hx : s.ctx? c = some x) (hf : x.feedable = true)

include hreset hx hf

/-- After draw `k` is rejected the step is draw `k + 1`, on the context the draws have fed. -/
theorem step_rejected (k : Nat) : step (s.rejected v c range x k) =
    .next (bdrawRedraw v c range (thresholdDf range) (x.feedAt k).1 s) := by
  have hread : (s.rejected v c range x k).ctx? c = some (x.feedAt k).1 :=
    State.ctx?_setCtx_same _ (State.ctx?_eq_some_lt hx)
  rw [step_of_loop (s := s.rejected v c range x k) hreset rfl, bdrawLoop_eq_next_iff]
  exact ⟨_, hread, (x.feedAt_feedable k).trans hf, (bdrawRedraw_setCtx_setPhase _ _ _).symm⟩

/-- While its draws are rejected a bounded draw makes one a step (R236, R304). -/
theorem stepsFrom_bdraw_rejected (hr : range ≠ 0) (n : Nat)
    (h : ∀ k, k ≤ n → lo32 (x.productAt range k) < thresholdDf range) :
    stepsFrom n (bdraw v c range s) = .next (s.rejected v c range x n) := by
  induction n with
  | zero =>
    obtain ⟨hv, hw⟩ := x.feedable_iff.mp hf
    rw [bdraw_of_feedable hx hv hw hr]
    exact congrArg _ (bdrawRedraw_of_rejected (h 0 le_rfl))
  | succ n ih =>
    have hrun := ih fun k hk => h k (Nat.le_succ_of_le hk)
    rw [stepsFrom_succ_of_run hrun, step_rejected hreset hx hf]
    exact congrArg _ (bdrawRedraw_of_rejected (h (n + 1) le_rfl))

/-- The first accepted draw ends the bounded draw with the high half of its product (R235). -/
theorem stepsFrom_bdraw_accepted (hr : range ≠ 0) (n : Nat)
    (h : ∀ k, k < n → lo32 (x.productAt range k) < thresholdDf range)
    (hn : thresholdDf range ≤ lo32 (x.productAt range n)) :
    stepsFrom n (bdraw v c range s) = .next
      ((s.setCtx c (x.feedAt n).1).finish .ok [zext64 (hi32 (x.productAt range n))]) := by
  cases n with
  | zero =>
    obtain ⟨hv, hw⟩ := x.feedable_iff.mp hf
    rw [bdraw_of_feedable hx hv hw hr]
    exact congrArg _ (bdrawRedraw_of_accepted hn)
  | succ n =>
    have hrun := stepsFrom_bdraw_rejected (v := v) hreset hx hf hr n fun k hk =>
      h k (Nat.lt_succ_of_le hk)
    rw [stepsFrom_succ_of_run hrun, step_rejected hreset hx hf]
    exact congrArg _ (bdrawRedraw_of_accepted hn)

end Draws

/-- Settles O57: by induction on the rejected draws. -/
theorem boundedDrawLoopsWhileItsDrawsAreRejected :
    Obligations.BoundedDrawLoopsWhileItsDrawsAreRejected :=
  fun _ _ _ x n _ hreset hx hv hw hr hrejected _ hi =>
    ⟨_, exec_bdraw hi,
      stepsFrom_bdraw_rejected hreset hx (x.feedable_iff.mpr ⟨hv, hw⟩) hr n hrejected⟩

/-- Settles O56: after the rejected draws, if any, one more step is the accepted one. -/
theorem boundedDrawAnswersItsFirstAcceptedDraw :
    Obligations.BoundedDrawAnswersItsFirstAcceptedDraw := by
  intro s c range x n hreset hx hv hw hr hrejected haccepted i hi
  obtain ⟨v, hiv⟩ := exists_variant_of_bdraw hi
  exact ⟨_, exec_bdraw hiv, stepsFrom_bdraw_accepted hreset hx (x.feedable_iff.mpr ⟨hv, hw⟩) hr n
    hrejected haccepted⟩

/-! ### The two variants side by side -/

theorem State.forgetVariant_of_idle (hp : s.phase = .idle) : s.forgetVariant = s := by
  cases s
  subst hp
  rfl

/-- A draw does not look at the variant: neither its own nor the one in PHASE. -/
theorem bdrawRedraw_forgetVariant (v w : Variant) (c : Nibble) (range th : U32) (x : Context)
    (s : State) : (bdrawRedraw v c range th x s.forgetVariant).forgetVariant =
      (bdrawRedraw w c range th x s).forgetVariant := by
  unfold bdrawRedraw
  dsimp only
  split <;> rfl

theorem bdrawLoop_forgetVariant (v w : Variant) (c : Nibble) (range th : U32) (s : State) :
    forgetOutcome (bdrawLoop v c range th s.forgetVariant) =
      forgetOutcome (bdrawLoop w c range th s) := by
  have hctx : s.forgetVariant.ctx? c = s.ctx? c := rfl
  unfold bdrawLoop
  rw [hctx]
  cases s.ctx? c with
  | none => rfl
  | some x =>
    cases hf : x.feedable with
    | false => simp [hf]
    | true =>
      simp only [hf, if_true]
      exact congrArg Host.Outcome.next (bdrawRedraw_forgetVariant v w c range th x s)

/-- What a step does does not depend on the variant in PHASE (R236). -/
theorem step_forgetVariant (s : State) :
    forgetOutcome (step s.forgetVariant) = forgetOutcome (step s) := by
  cases hr : s.resetIn with
  | true =>
    rw [step_of_reset hr, step_of_reset (s := s.forgetVariant) hr]
    rfl
  | false =>
    cases hp : s.phase with
    | idle => rw [State.forgetVariant_of_idle hp]
    | loop c range th m v =>
      have hp' : s.forgetVariant.phase = .loop c range th m .df :=
        congrArg Phase.forgetVariant hp
      rw [step_of_loop hr hp, step_of_loop (s := s.forgetVariant) hr hp']
      exact bdrawLoop_forgetVariant .df v c range th s

/-- Two outcomes equal but for the variant are two such states, or the same. -/
theorem next_or_eq_of_forgetOutcome_eq {a b : Host.Outcome State Fault Refusal}
    (h : forgetOutcome a = forgetOutcome b) :
    (∃ s t, a = .next s ∧ b = .next t ∧ s.forgetVariant = t.forgetVariant) ∨ a = b := by
  cases a with
  | next s =>
    cases b with
    | next t => exact .inl ⟨s, t, rfl, rfl, Host.Outcome.next.inj h⟩
    | fault r => cases h
    | refused r => cases h
  | fault r => cases b <;> cases h; exact .inr rfl
  | refused r => cases b <;> cases h; exact .inr rfl

/-- Two states equal but for the variant run alike (R243). -/
theorem stepsFrom_congr_forgetVariant (n : Nat) (h : s.forgetVariant = t.forgetVariant) :
    forgetOutcome (stepsFrom n s) = forgetOutcome (stepsFrom n t) := by
  induction n generalizing s t with
  | zero => exact congrArg Host.Outcome.next h
  | succ n ih =>
    have hstep : forgetOutcome (step s) = forgetOutcome (step t) := by
      rw [← step_forgetVariant s, h, step_forgetVariant t]
    rcases next_or_eq_of_forgetOutcome_eq hstep with ⟨u, w, hs, ht, huw⟩ | hst
    · rw [stepsFrom_succ_of_step hs, stepsFrom_succ_of_step ht, ih huw]
    · simp only [stepsFrom, hst]

/-- The two variants of a bounded draw begin alike. -/
theorem bdraw_forgetVariant (v w : Variant) (c : Nibble) (range : U32) (s : State) :
    (bdraw v c range s).forgetVariant = (bdraw w c range s).forgetVariant := by
  cases h : s.checkRange c range with
  | error e => rw [bdraw_of_checkRange_error h, bdraw_of_checkRange_error h]
  | ok x =>
    rw [bdraw_of_checkRange_ok h, bdraw_of_checkRange_ok h, ← bdrawRedraw_forgetVariant v v,
      bdrawRedraw_forgetVariant v w]

/-- Settles O52: the thresholds are equal, and so are the draws up to the variant. -/
theorem theTwoThresholdsAreEqual : Obligations.TheTwoThresholdsAreEqual :=
  ⟨fun range _ => thresholdDa_eq_thresholdDf range,
    fun s c range => congrArg Host.Outcome.next (bdraw_forgetVariant .df .da c range s)⟩

/-- Settles O58: the two draws begin alike, and every step keeps them alike. -/
theorem theTwoVariantsRunAlike : Obligations.TheTwoVariantsRunAlike := by
  intro s sd sa c range hd ha n
  obtain rfl := Host.Outcome.next.inj hd
  obtain rfl := Host.Outcome.next.inj ha
  exact stepsFrom_congr_forgetVariant n (bdraw_forgetVariant .df .da c range s)

end Sys2Proof.Machine
end

section
/-!
PROOF of O15 and O16: errors (R271, R272).  The ladder of R272 has two parts.  Its first seven lines
are the test of a header (`checkedStatus_of_illegalHeader`); on the words of a command the other lines
are the checks that the command makes of the state (`checkedStatus_encode`), and their status is how
the command ends (`exec_endsWith`).
-/

namespace Sys2Proof.Machine

open Sys2Proof.Claims (checkedStatus)

/-! ### A failed command -/

/-- A command whose response is not OK emits it with no result and does nothing else: every other
case of `CommandResult` answers OK or does not answer. -/
theorem CommandResult.eq_finish_of_not_ok {i : Instr} {s t : State} {r : Response}
    (h : CommandResult i s t) (hresp : t.responses = s.responses ++ [r]) (hr : r.status ≠ .ok) :
    t = s.finish r.status [] := by
  cases h with
  | failed e he =>
    obtain rfl : ⟨e, []⟩ = r := by simpa using hresp
    rfl
  | answered | seeded | drawn =>
    simp only [State.finish_responses, State.setCtx_responses, List.append_cancel_left_eq,
      List.cons.injEq, and_true] at hresp
    exact absurd (hresp ▸ rfl) hr
  | looping => simp at hresp

/-- Settles O15: only an illegal command and a failed one answer a status other than OK, and both
only emit it, from the state without the command's words. -/
theorem failedCommandWritesNothing : Obligations.FailedCommandWritesNothing := by
  intro s t r hr hp h hresp hstatus
  have hfail : ∃ rest, Decodes s.inbuf rest ∧ t = (s.consume rest).finish r.status [] := by
    cases step_result h with
    | reset hreset => simp [hr] at hreset
    | redraw _ c range th m v x hloop => simp [hp] at hloop
    | received => simp at hresp
    | illegal _ _ why rest hd =>
      obtain rfl : ⟨.illegalCommand, []⟩ = r := by simpa using hresp
      exact ⟨rest, .inr ⟨why, hd⟩, rfl⟩
    | command _ _ i rest hd t ht =>
      exact ⟨rest, .inl ⟨i, hd⟩, ht.eq_finish_of_not_ok hresp hstatus⟩
  obtain ⟨rest, hd, rfl⟩ := hfail
  obtain ⟨h, ps, hinbuf, hlen⟩ := hd.split
  refine ⟨h, ps ++ rest, hinbuf, by simp [← hlen], ?_⟩
  simp [← hlen, State.finish, State.consume, hp]

/-! ### The lines of the ladder -/

/-- The status of the check `k`, followed by the lines `rest` on the context it has found. -/
def ladder (k : Except Status Context) (rest : Context → Status) : Status :=
  match k with
  | .error e => e
  | .ok x => rest x

/-- The status of the check `k` alone. -/
abbrev checkStatus (k : Except Status Context) : Status := ladder k fun _ => .ok

theorem checkContext_error_ne_ok {s : State} {c : Nibble} {e : Status}
    (h : s.checkContext c = .error e) : e ≠ .ok := by
  obtain ⟨_, rfl⟩ := State.checkContext_error_iff.mp h
  simp

section Lines

variable (s : State) (c : Nibble) (rest : Context → Status)

/-! Check 8 is one line, and each later check is the check before it and one more line. -/

@[simp] theorem ladder_checkContext : ladder (s.checkContext c) rest =
    if h : s.ctxs.length ≤ c.toNat then .badContext else rest (s.ctxs[c.toNat]'(by omega)) := by
  split
  · rename_i h
    rw [State.checkContext_error_iff.mpr ⟨(s.ctx?_eq_none_iff c).mpr h, rfl⟩, ladder]
  · rename_i h
    rw [State.checkContext_ok_iff.mpr (List.getElem?_eq_getElem (Nat.not_le.mp h)), ladder]

@[simp] theorem ladder_checkSeeded : ladder (s.checkSeeded c) rest =
    ladder (s.checkContext c) fun x => if x.valid = false then .notSeeded else rest x := by
  unfold State.checkSeeded
  cases s.checkContext c with
  | error e => rfl
  | ok x => cases hv : x.valid <;> simp [ladder, hv]

@[simp] theorem ladder_checkFeedable : ladder (s.checkFeedable c) rest =
    ladder (s.checkSeeded c) fun x => if width x.alg = 32 then .algMismatch else rest x := by
  unfold State.checkFeedable
  cases s.checkSeeded c with
  | error e => rfl
  | ok x => rcases width_cases x.alg with hw | hw <;> simp [ladder, hw]

@[simp] theorem ladder_checkRange (range : U32) : ladder (s.checkRange c range) rest =
    ladder (s.checkFeedable c) fun x => if range = 0 then .invalidRange else rest x := by
  unfold State.checkRange
  cases s.checkFeedable c with
  | error e => rfl
  | ok x => by_cases hr : range = 0 <;> simp only [ladder, hr, if_true, if_false]

end Lines

/-! ### How a command ends -/

/-- The status of checks 8 to 12 of R272, of those that the command makes. -/
def State.commandStatus (s : State) : Instr → Status
  | .seed c a p =>
    ladder (s.checkContext c) fun _ => if seedLegal a p = false then .precondition else .ok
  | .next c | .nextdM c | .nextdB c => checkStatus (s.checkSeeded c)
  | .feed32 c => checkStatus (s.checkFeedable c)
  | .bdrawDf c range | .bdrawDa c range => checkStatus (s.checkRange c range)
  | .cvtm _ | .cvtb _ => .ok
  | .rdst c => checkStatus (s.checkContext c)

/-- `t` has answered OK, or it is inside a rejection loop and has not answered (R236). -/
def OkOrLoops (s t : State) : Prop :=
  (∃ rs, t.responses = s.responses ++ [⟨.ok, rs⟩]) ∨
    (t.responses = s.responses ∧ ∃ c range th m v, t.phase = .loop c range th m v)

/-- How a command whose checks give `st` ends: a failed status is its whole effect, and with OK it
executes its rule. -/
def EndsWith (st : Status) (s t : State) : Prop :=
  (st ≠ .ok → t = s.finish st []) ∧ (st = .ok → OkOrLoops s t)

section Ends

variable {s t : State} {k : Except Status Context} {rest : Context → Status} {f : Context → State}

theorem EndsWith.failed {e : Status} (he : e ≠ .ok) : EndsWith e s (s.fail e) :=
  ⟨fun _ => rfl, fun h => absurd h he⟩

theorem EndsWith.executed (h : OkOrLoops s t) : EndsWith .ok s t :=
  ⟨fun hne => absurd rfl hne, fun _ => h⟩

theorem EndsWith.answered {rs : List Word} (h : t.responses = s.responses ++ [⟨.ok, rs⟩]) :
    EndsWith .ok s t :=
  .executed (.inl ⟨rs, h⟩)

/-- A command that makes the check `k` fails with it, or ends as it does after the check. -/
theorem EndsWith.check (hf : ∀ x, EndsWith (rest x) s (f x)) : (∀ e, k = .error e → e ≠ .ok) →
    EndsWith (ladder k rest) s (match k with | .error e => s.fail e | .ok x => f x) := by
  intro hk
  cases k with
  | error e => exact .failed (hk e rfl)
  | ok x => exact hf x

theorem bdrawFirst_okOrLoops (v : Variant) (c : Nibble) (range : U32) (x : Context) (s : State) :
    OkOrLoops s (bdrawFirst v c range x s) := by
  rw [bdrawFirst_eq]
  split
  · exact .inl ⟨_, rfl⟩
  · rcases bdrawRedraw_cases v c range (threshold v range) x s with ⟨_, he⟩ | ⟨_, he⟩ <;> rw [he]
    · exact .inl ⟨_, rfl⟩
    · exact .inr ⟨rfl, _, _, _, _, _, rfl⟩

theorem bdraw_endsWith (v : Variant) (c : Nibble) (range : U32) (s : State) :
    EndsWith (checkStatus (s.checkRange c range)) s (bdraw v c range s) :=
  .check (fun x => .executed (bdrawFirst_okOrLoops v c range x s))
    fun _ => State.checkRange_error_ne_ok

theorem drawConverted_endsWith (conv : Word → Word) (c : Nibble) (s : State) :
    EndsWith (checkStatus (s.checkSeeded c)) s (drawConverted conv c s) :=
  .check (fun _ => .answered rfl) fun _ => checkSeeded_error_ne_ok

/-- After check 8, SEED fails with check 9 or answers OK (R140). -/
theorem seed_endsWith (c : Nibble) (a : Alg) (p : List Word) (s : State) :
    EndsWith (if seedLegal a p = false then .precondition else .ok) s
      (if seedLegal a p then (s.setCtx c (Context.seeded a p)).finish .ok []
        else s.fail .precondition) := by
  cases seedLegal a p with
  | true => exact .answered rfl
  | false => exact .failed (by simp)

/-- A command ends with the status of its checks. -/
theorem exec_endsWith (i : Instr) (s : State) :
    ∃ t, exec i s = .next t ∧ EndsWith (s.commandStatus i) s t := by
  cases i with
  | seed c a p =>
    exact ⟨_, rfl, .check (fun _ => seed_endsWith c a p s) fun _ => checkContext_error_ne_ok⟩
  | next c => exact ⟨_, rfl, .check (fun _ => .answered rfl) fun _ => checkSeeded_error_ne_ok⟩
  | feed32 c => exact ⟨_, rfl, .check (fun _ => .answered rfl) fun _ => checkFeedable_error_ne_ok⟩
  | bdrawDf c range => exact ⟨_, rfl, bdraw_endsWith .df c range s⟩
  | bdrawDa c range => exact ⟨_, rfl, bdraw_endsWith .da c range s⟩
  | cvtm x => exact ⟨_, rfl, .answered rfl⟩
  | cvtb x => exact ⟨_, rfl, .answered rfl⟩
  | nextdM c => exact ⟨_, rfl, drawConverted_endsWith convMul c s⟩
  | nextdB c => exact ⟨_, rfl, drawConverted_endsWith convBit c s⟩
  | rdst c => exact ⟨_, rfl, .check (fun _ => .answered rfl) fun _ => checkContext_error_ne_ok⟩

end Ends

/-! ### The ladder -/

/-- The first seven lines of the ladder are the conditions of R80, in another order. -/
theorem checkedStatus_of_illegalHeader {h : Word} (hh : Sys2Proof.Claims.IllegalHeader h)
    (p : List Word) (ctxs : List Context) : checkedStatus h p ctxs = .illegalCommand := by
  unfold Sys2Proof.Claims.IllegalHeader at hh
  simp only [checkedStatus, ← ite_or]
  refine if_pos ?_
  simp only [ne_eq, BitVec.toNat_eq, BitVec.ofNat_eq_ofNat, BitVec.toNat_ofNat, Nat.reducePow,
    Nat.reduceMod] at hh ⊢
  split <;> omega

/-- On the words of a command no header line of the ladder applies, and the others are the checks
that the command makes. -/
theorem checkedStatus_encode (i : Instr) (s : State) :
    checkedStatus (encodeHeader i) i.payload s.ctxs = s.commandStatus i := by
  cases i with
  | cvtm x | cvtb x => simp [checkedStatus, encodeHeader, State.commandStatus]
  | seed c a p =>
    have hcode : ¬ 8 < a.code.toNat := by cases a <;> decide
    simp [checkedStatus, encodeHeader, State.commandStatus, Instr.payload, hcode]
  | next c | feed32 c | nextdM c | nextdB c | rdst c | bdrawDf c range | bdrawDa c range =>
    rcases Nat.lt_or_ge c.toNat s.ctxs.length with hc | hc
    · simp [checkedStatus, encodeHeader, State.commandStatus, hc, hc.not_ge]
    · simp [checkedStatus, encodeHeader, State.commandStatus, hc]

/-- Settles O16: an illegal header is answered as O6 says; any other is the encoding of a command,
which ends with the status of its checks. -/
theorem checksAreMadeInOrder : Obligations.ChecksAreMadeInOrder := by
  intro s h ps hr hp hinbuf hlen
  by_cases hh : Sys2Proof.Claims.IllegalHeader h
  · rw [checkedStatus_of_illegalHeader hh]
    refine ⟨fun _ => ?_, nofun⟩
    exact (illegalCommandIsAnsweredAndConsumed s h ps hr hp hinbuf hlen).2 hh
  · have hn : rejectHeader h = none := not_not.mp (mt (illegalHeader_iff h).mpr hh)
    obtain ⟨i, hd⟩ := decode_of_accepted hlen.ge hn
    rw [← hlen, List.drop_length, ← hinbuf] at hd
    obtain ⟨rfl, rfl⟩ : h = encodeHeader i ∧ ps = i.payload := by
      simpa [encode, hinbuf] using (decode_eq_command_iff.mp hd).2
    have hstep : step s = exec i (s.consume []) := step_of_command hr hp hd
    have hstatus : checkedStatus (encodeHeader i) i.payload s.ctxs =
        (s.consume []).commandStatus i := checkedStatus_encode i (s.consume [])
    obtain ⟨t, ht, hfail, hok⟩ := exec_endsWith i (s.consume [])
    rw [hstatus]
    refine ⟨fun hne => ?_, fun he => ⟨i, t, hd, hstep, hstep.trans ht, hok he⟩⟩
    rw [hstep, ht, hfail hne]
    simp [State.finish, State.consume, hp]

end Sys2Proof.Machine
end

section
/-!
PROOF of O13 and O59.  Between commands the block does nothing more, so a run that is over stays in
its state.  A run that is over has all its words decoded, which the responses emitted and owed
(`State.pledged`, constant along a run) exclude when the words end inside a command.
-/

namespace Sys2Proof.Machine

variable {r : Run} {s t u : State} {m n : Nat}

/-! ### Reset -/

theorem State.eq_reset_of_mem_applyReset {x : Context} (hx : x ∈ s.applyReset.ctxs) :
    x = Context.reset := by
  obtain ⟨_, _, rfl⟩ := List.mem_map.mp hx
  rfl

/-- Settles O13: the step is the reset event, which makes every context a reset one. -/
theorem resetEventResetsFromAnyState : Obligations.ResetEventResetsFromAnyState := by
  intro s hr
  refine ⟨s.applyReset, step_of_reset hr, by simp, fun x hx => ?_, rfl, rfl, rfl, rfl⟩
  rw [State.eq_reset_of_mem_applyReset hx]
  exact ⟨rfl, rfl, Words.get_zero, rfl, rfl⟩

/-! ### A run that is over stays over -/

/-- A block between commands waits for a word (R307). -/
theorem step_self_of_ready (h : s.ready = true) : step s = .next s := by
  obtain ⟨hp, hinbuf, hport, hr⟩ := s.ready_iff.mp h
  have hd : decode s.inbuf = .incomplete := by rw [hinbuf]; rfl
  exact step_self_of_not_busy (by simp [State.Busy, hr, hp, hd, hport])

theorem Run.after_add_of_isOver (ht : r.after n = .next t) (hover : r.isOver t = true) (k : Nat) :
    r.after (n + k) = .next t := by
  obtain ⟨hready, _⟩ := (r.isOver_iff t).mp hover
  exact (stepsFrom_add ht k).trans (stepsFrom_of_step_self (step_self_of_ready hready) k)

/-- A run is over in one state only: it stays in the first. -/
theorem Run.isOver_unique (ht : r.after n = .next t) (hover : r.isOver t = true)
    (hu : r.after m = .next u) (huover : r.isOver u = true) : u = t := by
  have hstay : r.after (n + m) = .next u :=
    Nat.add_comm m n ▸ Run.after_add_of_isOver hu huover n
  exact Host.Outcome.next.inj (hstay.symm.trans (Run.after_add_of_isOver ht hover m))

/-! ### Runs that are never over -/

theorem Run.observation_eq_none (h : ∀ t, r.after n = .next t → ¬ r.isOver t = true) :
    r.observation n = none := by
  refine Option.eq_none_iff_forall_ne_some.mpr fun o ho => ?_
  obtain ⟨t, ht, hover, _⟩ := (r.observation_eq_some_iff n o).mp ho
  exact h t ht hover

/-- A run launched inside a command whose words have not all arrived is never over (R71). -/
theorem Run.not_isOver_of_owed_eq_none (h : r.launch.owed = none) (t : State) :
    ¬ r.isOver t = true := by
  intro hover
  obtain ⟨_, k, hk, _⟩ := (r.isOver_iff t).mp hover
  simp [h] at hk

/-- A run that stays inside a rejection loop is never over: PHASE is IDLE when it is (R310). -/
theorem Run.not_isOver_of_loops {N : Nat}
    (hloop : ∀ n, N ≤ n → ∃ t c range th m v, r.after n = .next t ∧ t.phase = .loop c range th m v)
    (ht : r.after n = .next t) : ¬ r.isOver t = true := by
  intro hover
  obtain ⟨u, c, range, th, m, v, hu, hp⟩ := hloop (n + N) (Nat.le_add_left N n)
  obtain rfl := Host.Outcome.next.inj ((Run.after_add_of_isOver ht hover N).symm.trans hu)
  obtain ⟨hready, _⟩ := (r.isOver_iff t).mp hover
  obtain ⟨hidle, _⟩ := t.ready_iff.mp hready
  simp [hidle] at hp

/-! ### A run that ends inside a command -/

/-- Words sent after whole commands count on from them. -/
theorem State.waiting_hostSend (h : s.waiting = some n) (ws : List Word) :
    (s.hostSend ws).waiting = (countCommands 0 ws).map (n + ·) := by
  rw [← countCommands_append h ws, List.append_assoc]
  rfl

/-- Queued after whole commands, words that end inside a command leave it unknown what will have
been emitted. -/
theorem Run.pledged_start_of_incomplete (hwf : r.WellFormed) {k : Nat}
    (howed : r.launch.owed = some k) {ws : List Word} (hne : ws ≠ [])
    (hd : decode ws = .incomplete) :
    (Run.mk r.launch (r.commands ++ [ws])).start.pledged = none := by
  obtain ⟨n, hn, _⟩ := (State.owed_eq_some_iff r.launch k).mp howed
  have hwhole : r.start.waiting = some (n + r.commands.length) := by
    rw [Run.start, State.waiting_hostSend hn, countCommands_flatten hwf.2]
    rfl
  rw [State.pledged, Run.start_append, State.waiting_hostSend hwhole, List.flatten_singleton,
    countCommands_of_incomplete hne hd]
  rfl

/-- With no reset pending, what will have been emitted is the same all along a run (R29). -/
theorem stepsFrom_pledged (hr : s.resetIn = false) (h : stepsFrom n s = .next t) :
    t.pledged = s.pledged := by
  induction n generalizing s with
  | zero =>
    obtain rfl := Host.Outcome.next.inj h
    rfl
  | succ n ih =>
    cases hs : step s with
    | fault e => simp [stepsFrom, hs] at h
    | refused e => simp [stepsFrom, hs] at h
    | next u =>
      obtain ⟨hstep, hr'⟩ := (step_result hs).runStep hr
      rw [stepsFrom_succ_of_step hs] at h
      exact (ih hr' h).trans hstep.pledged_eq

/-- Between commands it is known what has been emitted. -/
theorem State.pledged_of_ready (h : s.ready = true) : s.pledged = some s.responses.length :=
  State.pledged_eq_some_iff.mpr ⟨0, State.owed_of_ready h, rfl⟩

/-- A run of complete commands followed by an incomplete one is never over: some of its words stay
undecoded (R71, R310). -/
theorem Run.not_isOver_of_incomplete (hwf : r.WellFormed) {ws : List Word} (hne : ws ≠ [])
    (hd : decode ws = .incomplete)
    (ht : (Run.mk r.launch (r.commands ++ [ws])).after n = .next t) :
    ¬ (Run.mk r.launch (r.commands ++ [ws])).isOver t = true := by
  intro hover
  obtain ⟨hready, k, howed, _⟩ := (Run.isOver_iff _ t).mp hover
  have hnone := stepsFrom_pledged (s := (Run.mk r.launch (r.commands ++ [ws])).start) hwf.1 ht
  rw [Run.pledged_start_of_incomplete hwf howed hne hd, State.pledged_of_ready hready] at hnone
  cases hnone

/-- Settles O59: the first clause because a block between commands waits, the others because each
gives a reason why no state of the run is one in which it is over. -/
theorem runIsOverForGoodOrNever : Obligations.RunIsOverForGoodOrNever := by
  refine ⟨fun r n t ht hover => ⟨Run.after_add_of_isOver ht hover, fun m o ho => ?_⟩,
    fun r ws hwf hne hd n => ?_, fun r N hloop n => ?_, fun r howed n => ?_⟩
  · obtain ⟨u, hu, huover, rfl⟩ := (r.observation_eq_some_iff m o).mp ho
    rw [Run.isOver_unique ht hover hu huover]
  · exact Run.observation_eq_none fun t ht => Run.not_isOver_of_incomplete hwf hne hd ht
  · exact Run.observation_eq_none fun t ht => Run.not_isOver_of_loops hloop ht
  · exact Run.observation_eq_none fun t _ => Run.not_isOver_of_owed_eq_none howed t

end Sys2Proof.Machine
end
